-- ==== Sys2Proof/Word.lean ====
section
/-! DEFINITION. The fixed-width words of the block and the two line levels (spec 00_scope.md R5, R7, R8, R10). -/

namespace Sys2Proof

/-- A command word, an argument word, a bit pattern: 32 bits (R5 `PAT_W`, R60). -/
abbrev Word := BitVec 32

/-- A tick, and each half of a WaitValue: 16 bits (R5 `TICK_W`). -/
abbrev Tick := BitVec 16

/-- A level of the output line (R10). -/
inductive Level where
  /-- `L`, the idle level. -/
  | low
  /-- `H`. -/
  | high
  deriving DecidableEq, Repr

/-- The value on the wire: `H` is 1, `L` is 0 (R10). -/
def Level.bit : Level → BitVec 1
  | .low => 0
  | .high => 1

end Sys2Proof
end

