-- ==== Sys2Proof/Config.lean ====
section
/-! DEFINITION. The configuration of the block (spec 00_scope.md R5, 20_memory.md R40 to R43) and the free values the
spec leaves open (opaque constants without a body). -/

namespace Sys2Proof

/-- The high and the low duration of one symbol, in pulse units (20_memory.md R41 `symbolTiming[b]`). -/
structure Symbol where
  high : Nat
  low  : Nat
  deriving DecidableEq, Repr

/-- An entry of the Encoding table (20_memory.md R41). Every field is an unsigned number; check W4 of R45 bounds the
durations, in pulse units, by `DUR_W` and `bitCount` by `BC_W`. -/
structure Encoding where
  /-- `interRepeatGapTicks`. -/
  gap          : Nat
  bitCount     : Nat
  /-- `preambleHighTicks`. -/
  preambleHigh : Nat
  /-- `preambleLowTicks`. -/
  preambleLow  : Nat
  /-- `symbolTiming[0]`. -/
  sym0         : Symbol
  /-- `symbolTiming[1]`. -/
  sym1         : Symbol
  deriving DecidableEq, Repr

/-- An entry of the Switch table (20_memory.md R42). W1 and W2 keep `protocolId` below 256; W4 bounds it by `PID_W`. -/
structure Switch where
  protocolId : BitVec 8
  /-- `commands[0]`, the pattern for "off". -/
  off        : Word
  /-- `commands[1]`, the pattern for "on". -/
  on         : Word
  deriving DecidableEq, Repr

/-- The parameters of the block that a configuration chooses (00_scope.md R5). `N_PROTO` and `N_SWITCH` are the lengths
of the two tables; `TICK_W` and `PAT_W` are fixed by a source, and `N_WAIT` is 1. `unitNs` and `tickHz` are carried because
R5 lists them; by R91 and R191 no rule reads them. DESIGN CHOICE (log 20): the spec gives those two no number type and N16
says the exact rate is in no source; here they are whole numbers, so a rate such as 7812.5 cannot be written down. -/
structure Config where
  /-- `ENC[0..N_PROTO-1]`. -/
  enc         : List Encoding
  /-- `SW[0..N_SWITCH-1]`. -/
  sw          : List Switch
  /-- `TRAILING_GAP` (92_eei_decisions.md D10). -/
  trailingGap : Bool
  /-- `DUR_W` (D12). -/
  durW        : Nat
  /-- `BC_W` (D13). -/
  bcW         : Nat
  /-- `REP_W` (D14). -/
  repW        : Nat
  /-- `PID_W` (D15). -/
  pidW        : Nat
  /-- `IDX_W` (D15). -/
  idxW        : Nat
  /-- `ONOFF_W` (D15). -/
  onoffW      : Nat
  /-- `UNIT_NS` (D23), in whole nanoseconds (log 20). -/
  unitNs      : Nat
  /-- `TICK_HZ` (D24), in whole ticks per second (log 20). -/
  tickHz      : Nat
  deriving DecidableEq, Repr

/-- The configuration with nothing loaded: both tables empty, every other parameter at the value R5 prints.
DESIGN CHOICE (log 2): the spec gives no table contents (91_not_in_source.md N4). -/
def Config.unloaded : Config :=
  { enc := [], sw := [], trailingGap := false, durW := 16, bcW := 8, repW := 16, pidW := 8, idxW := 16, onoffW := 8,
    unitNs := 4000, tickHz := 7812 }

/-- `tick0`: the tick counter's value after power-on, "an arbitrary 16-bit value" (10_state.md R35, D8; log 3). Free value. -/
opaque Config.tick0 : Tick

/-- What reset leaves in `s.pg.rem` (10_state.md R36, 93 I8; log 4). Free value, one for each draw. -/
opaque Config.freeRem : Nat → Nat

/-- What reset leaves in `s.pg.bit` (R36; log 4). Free value. -/
opaque Config.freeBit : Nat → Nat

/-- What reset leaves in `s.pg.left` (R36; log 4). Free value. -/
opaque Config.freeLeft : Nat → Nat

/-- What reset leaves in `s.pg.pid` (R36; log 4). Free value. -/
opaque Config.freePid : Nat → Nat

/-- What reset leaves in `s.pg.val` (R36; log 4). Free value. -/
opaque Config.freeVal : Nat → Word

/-- How many steps the tick counter takes before the next one of a busy generator when no move is scheduled
(60_exceptions.md R161 "Any enabled agent may take the next step"; finite, as R162 asks; log 6). Free value. -/
opaque Config.freeTurns : Nat → Nat

end Sys2Proof
end

