-- ==== Sys2Proof/Syntax.lean ====
section
/-! DEFINITION. The commands of the block (spec 30_encoding.md R65: one constructor for each row of the opcode table)
and the lines of a host program (R69, R70). -/

namespace Sys2Proof

/-- A decoded command. Each operand has its field's width (30_encoding.md R61, R62), so every term is well formed. -/
inductive Instr where
  /-- TICK (40_timer.md R82). -/
  | tick
  /-- ARM ticks (R84). -/
  | arm (ticks : BitVec 16)
  /-- PASSED (R85). -/
  | passed
  /-- PASSED1 (R86). -/
  | passed1
  /-- RESOLVE idx, onoff (41_registry.md R102). -/
  | resolve (idx : BitVec 16) (onoff : BitVec 8)
  /-- TX pid, rep, value (42_pulse.md R130). -/
  | tx (pid : BitVec 8) (rep : BitVec 16) (value : BitVec 32)
  /-- SEND idx, onoff, rep (R131). -/
  | send (idx : BitVec 16) (onoff : BitVec 8) (rep : BitVec 16)
  deriving DecidableEq, Repr

/-- One line of a host program (30_encoding.md R69): operands are the unsigned literals as written, of any size, and
`Line.fits` is the check that each fits its field. The last four are the pseudo-instructions of R70. -/
inductive Line where
  | tick
  | arm (ticks : Nat)
  | passed
  | passed1
  | resolve (idx onoff : Nat)
  | tx (pid rep value : Nat)
  | send (idx onoff rep : Nat)
  /-- `RAW c, a`: the literal word pair. -/
  | raw (c a : Nat)
  /-- `DISARM`, which is `ARM 0`. -/
  | disarm
  /-- `WAITIDLE`: poll `busy` until it reads 0. -/
  | waitIdle
  /-- `WAITDUE`: poll `due` until it reads 1. -/
  | waitDue
  /-- `WAITTICKS n`: let `n` tick-counter steps pass. -/
  | waitTicks (n : Nat)
  deriving DecidableEq, Repr

end Sys2Proof
end

