-- ==== Sys2Proof/WellFormed.lean ====
section
/-! DEFINITION. Which host-program lines an assembler accepts (spec 30_encoding.md R69). A decoded command (`Instr`)
carries its operands at their fields' widths, so each of its terms is well formed; the configuration's checks W1 to W4
(20_memory.md R45) stand in Machine/Tables.lean. -/

namespace Sys2Proof

/-- The unsigned literal `n` fits a field of `w` bits (R69 "it must fit its field in rule R61"). -/
def fitsField (w n : Nat) : Bool :=
  decide (n < 2 ^ w)

/-- Every operand of the line fits its field (R61, R69). A line that fails is refused by the assembler. -/
def Line.fits : Line → Bool
  | .tick => true
  | .arm ticks => fitsField 16 ticks
  | .passed => true
  | .passed1 => true
  | .resolve idx onoff => fitsField 16 idx && fitsField 8 onoff
  | .tx pid rep value => fitsField 8 pid && (fitsField 16 rep && fitsField 32 value)
  | .send idx onoff rep => fitsField 16 idx && (fitsField 8 onoff && fitsField 16 rep)
  | .raw c a => fitsField 32 c && fitsField 32 a
  | .disarm => true
  | .waitIdle => true
  | .waitDue => true
  | .waitTicks _ => true

end Sys2Proof
end

