-- ==== Sys2Proof/Decode.lean ====
section
/-! DEFINITION. Command words to commands and back (spec 30_encoding.md R61 to R68). -/

namespace Sys2Proof

/-- Field `op`, `cmd[31:28]` (R61). -/
def opField (cmd : Word) : BitVec 4 :=
  cmd.extractLsb' 28 4

/-- Field `ticks` of ARM and `idx` of RESOLVE and SEND, `cmd[15:0]` (R61). -/
def lowHalfField (cmd : Word) : BitVec 16 :=
  cmd.extractLsb' 0 16

/-- Field `onoff`, `cmd[23:16]` (R61). -/
def onoffField (cmd : Word) : BitVec 8 :=
  cmd.extractLsb' 16 8

/-- Field `pid`, `cmd[7:0]` (R61). -/
def pidField (cmd : Word) : BitVec 8 :=
  cmd.extractLsb' 0 8

/-- Field `rep` of TX, `cmd[23:8]` (R61). -/
def txRepField (cmd : Word) : BitVec 16 :=
  cmd.extractLsb' 8 16

/-- Field `rep` of SEND, `arg[15:0]` (R61). -/
def sendRepField (arg : Word) : BitVec 16 :=
  arg.extractLsb' 0 16

/-- `decode(cmd, arg)` of R67; `none` is Illegal. Total over all pairs of words. -/
def decode (cmd arg : Word) : Option Instr :=
  if opField cmd = 0x1#4 then
    if cmd.extractLsb' 0 28 ≠ 0#28 then none else some .tick
  else if opField cmd = 0x2#4 then
    if cmd.extractLsb' 16 12 ≠ 0#12 then none else some (.arm (lowHalfField cmd))
  else if opField cmd = 0x3#4 then
    if cmd.extractLsb' 0 28 ≠ 0#28 then none else some .passed
  else if opField cmd = 0x4#4 then
    if cmd.extractLsb' 0 28 ≠ 0#28 then none else some .passed1
  else if opField cmd = 0x5#4 then
    if cmd.extractLsb' 24 4 ≠ 0#4 then none else some (.resolve (lowHalfField cmd) (onoffField cmd))
  else if opField cmd = 0x6#4 then
    if cmd.extractLsb' 24 4 ≠ 0#4 then none else some (.tx (pidField cmd) (txRepField cmd) arg)
  else if opField cmd = 0x7#4 then
    if cmd.extractLsb' 24 4 ≠ 0#4 then none
    else some (.send (lowHalfField cmd) (onoffField cmd) (sendRepField arg))
  else none

/-- The command under the configuration's operand widths (00_scope.md R5). R61's fields have the printed widths. Under a
narrower parameter the field's upper bits carry no operand, so they are reserved: non-zero in `cmd` they make the command
illegal, and in `arg` they are ignored (R63). Under a wider one the field is zero-extended (R62). DESIGN CHOICE (log 15) at
widths other than the printed ones; at those this is the identity. -/
def operandsAt (c : Config) : Instr → Option Instr
  | .tick => some .tick
  | .arm ticks => some (.arm ticks)
  | .passed => some .passed
  | .passed1 => some .passed1
  | .resolve idx onoff =>
    if idx.toNat < 2 ^ c.idxW ∧ onoff.toNat < 2 ^ c.onoffW then some (.resolve idx onoff) else none
  | .tx pid rep value =>
    if pid.toNat < 2 ^ c.pidW ∧ rep.toNat < 2 ^ c.repW then some (.tx pid rep value) else none
  | .send idx onoff rep =>
    if idx.toNat < 2 ^ c.idxW ∧ onoff.toNat < 2 ^ c.onoffW then
      some (.send idx onoff (BitVec.ofNat 16 (rep.toNat % 2 ^ c.repW)))
    else none

/-- The command a word pair is under a configuration; `none` is Illegal (R63, R66, R67). -/
def decodeAt (c : Config) (cmd arg : Word) : Option Instr :=
  match decode cmd arg with
  | none => none
  | some i => operandsAt c i

/-- The command word of a command, as the "Encoding" line of its rule gives it (R82, R84 to R86, R102, R130, R131). -/
def encodeCmd : Instr → Word
  | .tick => 0x10000000#32
  | .arm ticks => 0x20000000#32 ||| ticks.setWidth 32
  | .passed => 0x30000000#32
  | .passed1 => 0x40000000#32
  | .resolve idx onoff => 0x50000000#32 ||| (onoff.setWidth 32 <<< 16) ||| idx.setWidth 32
  | .tx pid rep _ => 0x60000000#32 ||| (rep.setWidth 32 <<< 8) ||| pid.setWidth 32
  | .send idx onoff _ => 0x70000000#32 ||| (onoff.setWidth 32 <<< 16) ||| idx.setWidth 32

/-- The argument word of a command; "An assembler encodes an unused `arg` as 0" (R69). -/
def encodeArg : Instr → Word
  | .tick => 0#32
  | .arm _ => 0#32
  | .passed => 0#32
  | .passed1 => 0#32
  | .resolve _ _ => 0#32
  | .tx _ _ value => value
  | .send _ _ rep => rep.setWidth 32

/-- The word pair `(cmd, arg)` of a command (R60, R68). -/
def encode (i : Instr) : Word × Word :=
  (encodeCmd i, encodeArg i)

/-- The bits of `arg` that the command reads; it ignores the others (R63). -/
def argMask : Instr → Word
  | .tick => 0#32
  | .arm _ => 0#32
  | .passed => 0#32
  | .passed1 => 0#32
  | .resolve _ _ => 0#32
  | .tx _ _ _ => 0xFFFFFFFF#32
  | .send _ _ _ => 0x0000FFFF#32

/-- A row of the opcode map: `cmd` selects the row when `cmd & mask = pattern` (R65; `pattern` is the table's `match`). -/
structure OpcodeRow where
  pattern : Word
  mask    : Word
  deriving DecidableEq, Repr

/-- The row of a command in the opcode map of R65. -/
def rowOf : Instr → OpcodeRow
  | .tick => ⟨0x10000000#32, 0xFFFFFFFF#32⟩
  | .arm _ => ⟨0x20000000#32, 0xFFFF0000#32⟩
  | .passed => ⟨0x30000000#32, 0xFFFFFFFF#32⟩
  | .passed1 => ⟨0x40000000#32, 0xFFFFFFFF#32⟩
  | .resolve _ _ => ⟨0x50000000#32, 0xFF000000#32⟩
  | .tx _ _ _ => ⟨0x60000000#32, 0xFF000000#32⟩
  | .send _ _ _ => ⟨0x70000000#32, 0xFF000000#32⟩

/-- `cmd` selects the row (R65). -/
def OpcodeRow.selects (r : OpcodeRow) (cmd : Word) : Bool :=
  decide (cmd &&& r.mask = r.pattern)

/-- The opcode map of R65, in its order. -/
def opcodeMap : List OpcodeRow :=
  [rowOf .tick, rowOf (.arm 0), rowOf .passed, rowOf .passed1, rowOf (.resolve 0 0), rowOf (.tx 0 0 0),
    rowOf (.send 0 0 0)]

/-- The low `nbits` bits of an opcode-table word, split into `cmd` (bits 31..0) and `arg` (bits 63..32); the bits above
`nbits` are 0. -/
def tableWords (nbits w : Nat) : Word × Word :=
  (BitVec.ofNat 32 (w % 2 ^ nbits), BitVec.ofNat 32 (w % 2 ^ nbits / 2 ^ 32))

/-- The command the decoder reads from an opcode-table word. -/
def decodeTableWord (nbits w : Nat) : Option Instr :=
  decode (tableWords nbits w).1 (tableWords nbits w).2

end Sys2Proof
end

