-- ==== Sys2Proof/Machine/State.lean ====
section
/-! DEFINITION. The state of the block (spec 10_state.md), the moves of its agents (60_exceptions.md R161) and its state
after reset (R35, R36). -/

namespace Sys2Proof.Machine

/-- `s.pg.phase` (10_state.md R30). -/
inductive Phase where
  /-- IDLE: no transmission. -/
  | idle
  /-- PRE_H: the high part of the preamble. -/
  | preH
  /-- PRE_L: the low part of the preamble. -/
  | preL
  /-- SYM_H: the high part of a symbol. -/
  | symH
  /-- SYM_L: the low part of a symbol. -/
  | symL
  /-- GAP: between two frames. -/
  | gap
  deriving DecidableEq, Repr

/-- The WaitValue register, `s.wv` (R23): the deadline interval `[start, end)`. -/
structure WaitValue where
  startTick : Tick
  endTick   : Tick
  deriving DecidableEq, Repr

/-- The WaitValue `(0, 0)`, named ALWAYS (R25). -/
def WaitValue.always : WaitValue := ⟨0, 0⟩

/-- The 2-bit sticky fault code, `s.fault` (R28, 60_exceptions.md R150). -/
inductive FaultCode where
  /-- 0: no fault since reset. -/
  | noFault
  /-- 1: IllegalCommand. -/
  | illegalCommand
  /-- 2: Busy. -/
  | busy
  /-- 3: BadProtocolId. -/
  | badProtocolId
  deriving DecidableEq, Repr

/-- The registers of the pulse generator, `s.pg` (R30). -/
structure PulseGen where
  phase : Phase
  /-- Pulse units still to emit in the current segment; `DUR_W` bits, a bound the invariant keeps. -/
  rem   : Nat
  /-- Index of the data bit being sent; `BC_W` bits, a bound the invariant keeps. -/
  bit   : Nat
  /-- Transmissions still to start after the current one. -/
  left  : BitVec 16
  /-- The latched protocol id. -/
  pid   : BitVec 8
  /-- The latched pattern. -/
  val   : Word
  deriving DecidableEq, Repr

/-- The response of a command (30_encoding.md R64). -/
structure Response where
  data : Word
  aux  : BitVec 8
  flag : Bool
  deriving DecidableEq, Repr

/-- The response with every field 0 (R64, 60_exceptions.md R152). -/
def Response.zero : Response := ⟨0, 0, false⟩

/-- One step of one agent (60_exceptions.md R161). The list of them in State is the interleaving (log 5). -/
inductive Move where
  /-- The host issues the pair `(cmd, arg)` on the command port (30_encoding.md R60). -/
  | command (cmd arg : Word)
  /-- The tick counter steps (10_state.md R21). -/
  | tick
  /-- A period of the pulse-unit clock ends (42_pulse.md R129). -/
  | pulse
  /-- The host asserts reset; it may load another configuration with it (70_reset_and_hazards.md R180, R182). -/
  | reset (load : Option Config)
  /-- Power-on: a reset with the configuration loaded and the counter at the draw `tick0` (R37, R180). -/
  | powerOn (load : Config) (tick0 : Tick)
  deriving DecidableEq, Repr

/-- The state of the block, `s`. The configuration is no field of it: every step of the block takes the tables as a
parameter (20_memory.md R43). -/
structure Block where
  /-- `s.tick` (10_state.md R21). -/
  tick  : Tick
  /-- `s.wv` (R23). -/
  wv    : WaitValue
  /-- `s.fault` (R28). -/
  fault : FaultCode
  /-- `s.pg` (R30). -/
  pg    : PulseGen
  /-- MODEL's own: the response of the last command (R20, R64; log 8). -/
  resp  : Option Response
  /-- MODEL's own: how many free values have been drawn (log 4). -/
  draws : Nat
  deriving DecidableEq, Repr

/-- What the host's `step` runs on: the block's state beside the parameter of its steps, which the host's interface has no
other place for (log 1), and the environment's schedule. -/
structure State extends Block where
  /-- The loaded configuration (20_memory.md R43, R57, R182; log 1). -/
  cfg   : Config
  /-- MODEL's own: the moves the agents make next, oldest first (log 5). -/
  moves : List Move
  /-- MODEL's own: steps the tick counter still takes before the next one of a busy generator, when no move is scheduled
  (log 6). -/
  turns : Nat
  deriving DecidableEq, Repr

/-- Why the model stops with a fault. The block's own three faults are no stop: they are recorded in `s.fault` and the
block goes on (60_exceptions.md R152). -/
inductive Fault where
  /-- Raised by a generator step or by SEND when the entry of ENC it needs does not exist. 20_memory.md R44 says an
  out-of-range read "never happens inside the block"; no state that meets the invariant raises it. Safe (log 11). -/
  | encIndexOutOfRange
  deriving DecidableEq, Repr

/-- Why the model refuses. -/
inductive Refusal where
  /-- Raised by an arm of `exec` whose instruction has no meaning yet (no arm now). Safe. -/
  | notModelled (mnemonic : String)
  /-- Raised by `step` when the loaded configuration, or the one a reset loads, fails a check W1 to W4: "A model refuses
  any other configuration before the first step" (20_memory.md R45). Safe (log 10). -/
  | configNotAdmitted
  deriving DecidableEq, Repr

/-- The generator after reset: IDLE (10_state.md R35), every other register unspecified (R36), so each takes the free
value of draw `d` (log 4), within the register's width. -/
def PulseGen.afterReset (c : Config) (d : Nat) : PulseGen :=
  { phase := .idle, rem := Config.freeRem d % 2 ^ c.durW, bit := Config.freeBit d % 2 ^ c.bcW,
    left := BitVec.ofNat 16 (Config.freeLeft d % 2 ^ c.repW), pid := BitVec.ofNat 8 (Config.freePid d % 2 ^ c.pidW),
    val := Config.freeVal d }

/-- The machine right after power-on (R35, R36, R37), with no configuration loaded (log 2), no response yet (log 8) and no move
scheduled (log 9). -/
def State.reset : State :=
  { cfg := Config.unloaded, tick := Config.tick0, wv := .always, fault := .noFault,
    pg := .afterReset Config.unloaded 0, resp := none, draws := 1, moves := [], turns := Config.freeTurns 0 }

end Sys2Proof.Machine
end

