-- ==== Sys2Proof/Machine/Flags.lean ====
section
/-! DEFINITION. The deadline predicate and the status outputs (spec 40_timer.md R80, 10_state.md R28, R30 to R34). -/

namespace Sys2Proof.Machine

/-- `hasPassed(wv, cur)` (40_timer.md R80): both branches as written there, on unsigned comparisons. -/
def hasPassed (wv : WaitValue) (cur : Tick) : Bool :=
  if wv.startTick ≤ wv.endTick then decide (wv.endTick ≤ cur) || decide (cur < wv.startTick)
  else decide (cur < wv.startTick) && decide (wv.endTick ≤ cur)

/-- The number of a phase (R30). -/
def Phase.code : Phase → BitVec 3
  | .idle => 0
  | .preH => 1
  | .preL => 2
  | .symH => 3
  | .symL => 4
  | .gap => 5

/-- The level of the line in a phase (R33). -/
def Phase.level : Phase → Level
  | .idle => .low
  | .preH => .high
  | .preL => .low
  | .symH => .high
  | .symL => .low
  | .gap => .low

/-- The number of a fault code (60_exceptions.md R150). -/
def FaultCode.code : FaultCode → BitVec 2
  | .noFault => 0
  | .illegalCommand => 1
  | .busy => 2
  | .badProtocolId => 3

/-- Output `busy` (R31). -/
def Block.busy (s : Block) : Bool := decide (s.pg.phase ≠ .idle)

/-- Output `due` (R32). -/
def Block.due (s : Block) : Bool := hasPassed s.wv s.tick

/-- Output `rf_out` (R33). -/
def Block.rfOut (s : Block) : Level := s.pg.phase.level

/-- Output `fault_code` (R34). -/
def Block.faultCode (s : Block) : BitVec 2 := s.fault.code

end Sys2Proof.Machine
end

