-- ==== Sys2Proof/Machine/Ops.lean ====
section
/-! DEFINITION. The named operations on the block's state that the commands and the agents share: answering, writing the
WaitValue, recording a fault, and reset; and how a step of the block is run under the configuration in force. -/

namespace Sys2Proof.Machine

/-- `respond(data, aux, flag)` (00_scope.md R9, 30_encoding.md R64). -/
def Block.respond (s : Block) (r : Response) : Block := { s with resp := some r }

/-- Write `s.wv`, both halves in one step (10_state.md R26). -/
def Block.setWv (s : Block) (wv : WaitValue) : Block := { s with wv := wv }

/-- Write the generator's registers (R30). -/
def Block.setPg (s : Block) (g : PulseGen) : Block := { s with pg := g }

/-- `if s.fault = 0 then s.fault <- code` (60_exceptions.md R151). -/
def recordCode (old code : FaultCode) : FaultCode := if old = .noFault then code else old

/-- `raise Fault(code)`: TAKING A FAULT, the one operation all faults share. It records the code if it is the first
since reset (R151), answers zeros and changes nothing else (R152, R155). There is no return from it (R156). -/
def Block.raiseFault (s : Block) (code : FaultCode) : Block :=
  { s with fault := recordCode s.fault code, resp := some Response.zero }

/-- Reset under the configuration `c` in force from now on (70_reset_and_hazards.md R180, 10_state.md R35, R36):
`s.wv <- (0, 0)`, `s.fault <- 0`, `s.pg.phase <- IDLE`, the other generator registers unspecified, `s.tick` untouched. -/
def Block.resetTo (s : Block) (c : Config) : Block :=
  { s with wv := .always, fault := .noFault, pg := .afterReset c s.draws, resp := none, draws := s.draws + 1 }

/-- Power-on: a reset (R37) with `s.tick` at the draw `t` (R180). -/
def Block.powerOnTo (s : Block) (c : Config) (t : Tick) : Block :=
  { s.resetTo c with tick := t }

/-- One step of the tick counter, `s.tick <- s.tick +16 1` (R21). -/
def Block.advanceTick (s : Block) : Block := { s with tick := s.tick + 1 }

/-- A step of the block under the configuration in force; the environment's fields and the configuration stay. -/
def State.onBlock (s : State) (f : Config → Block → Host.Outcome Block Fault Refusal) :
    Host.Outcome State Fault Refusal :=
  match f s.cfg s.toBlock with
  | .next b => .next { s with toBlock := b }
  | .fault r => .fault r
  | .refused r => .refused r

end Sys2Proof.Machine
end

