-- ==== Sys2Proof/Machine/Tables.lean ====
section
/-! DEFINITION. The two read-only tables: reads, `lookup`, `resolve` (spec 20_memory.md R40 to R44, 41_registry.md R100,
R101) and the checks W1 to W4 that admit a configuration (R45). -/

namespace Sys2Proof.Machine

/-- `N_PROTO` (00_scope.md R5). -/
abbrev nProto (c : Config) : Nat := c.enc.length

/-- `N_SWITCH` (R5). -/
abbrev nSwitch (c : Config) : Nat := c.sw.length

/-- `MemRead(ENC, pid)`: the whole entry (20_memory.md R44); `none` where there is no such entry. -/
def readEnc (c : Config) (i : Nat) : Option Encoding := c.enc[i]?

/-- `MemRead(SW, idx)` (R44). -/
def readSw (c : Config) (i : Nat) : Option Switch := c.sw[i]?

/-- `lookup(pid)` (41_registry.md R100); `none` is `raise Fault(BadProtocolId)`. -/
def lookup (c : Config) (pid : BitVec 8) : Option Encoding :=
  if pid.toNat < nProto c then readEnc c pid.toNat else none

/-- The outcome of `resolve` (R101). -/
inductive Resolved where
  | found (pid : BitVec 8) (pattern : Word)
  | notFound
  deriving DecidableEq, Repr

/-- `sw.commands[onoff]` for an `onoff` of 0 or 1 (20_memory.md R42). -/
def switchCommand (x : Switch) (onoff : BitVec 8) : Word :=
  if onoff = 0 then x.off else x.on

/-- `resolve(idx, onoff)` (41_registry.md R101). -/
def resolve (c : Config) (idx : BitVec 16) (onoff : BitVec 8) : Resolved :=
  if nSwitch c ≤ idx.toNat ∨ 1 < onoff.toNat then .notFound
  else
    match readSw c idx.toNat with
    | some x => .found x.protocolId (switchCommand x onoff)
    | none => .notFound

/-- W1: `N_PROTO <= 256` and `N_SWITCH <= 65535` (20_memory.md R45). 00_scope.md R5 derives these numbers from the printed
`PID_W` and from D15. DESIGN CHOICE (log 21): under other widths the same two numbers stay, so a table may have entries that
no operand of a narrower width names. -/
def checkW1 (c : Config) : Bool :=
  decide (nProto c ≤ 256) && decide (nSwitch c ≤ 65535)

/-- W2: every switch names an entry of ENC (R45). -/
def checkW2 (c : Config) : Bool :=
  c.sw.all fun x => decide (x.protocolId.toNat < nProto c)

/-- The pattern fits the bit count: `n >= 32` or `v < 2^n` (R45 W3). -/
def patternFits (n : Nat) (v : Word) : Bool :=
  decide (32 ≤ n) || decide (v.toNat < 2 ^ n)

/-- W3: both patterns of every switch fit the bit count of its Encoding (R45). A switch without an Encoding fails W2. -/
def checkW3 (c : Config) : Bool :=
  c.sw.all fun x =>
    match readEnc c x.protocolId.toNat with
    | some e => patternFits e.bitCount x.off && patternFits e.bitCount x.on
    | none => true

/-- Every duration of an Encoding fits `DUR_W` bits and its bit count `BC_W` bits (R41, R45 W4). -/
def encodingFits (c : Config) (e : Encoding) : Bool :=
  ([e.gap, e.preambleHigh, e.preambleLow, e.sym0.high, e.sym0.low, e.sym1.high, e.sym1.low].all fun d =>
    decide (d < 2 ^ c.durW)) && decide (e.bitCount < 2 ^ c.bcW)

/-- W4: every field fits its width (R41, R42, R45). A pattern fits its 32 bits by its type. -/
def checkW4 (c : Config) : Bool :=
  c.enc.all (encodingFits c) && c.sw.all fun x => decide (x.protocolId.toNat < 2 ^ c.pidW)

/-- The configuration is admitted: W1 to W4 hold (00_scope.md R6, 20_memory.md R45). -/
def admitted (c : Config) : Bool :=
  checkW1 c && (checkW2 c && (checkW3 c && checkW4 c))

end Sys2Proof.Machine
end

