-- ==== Sys2Proof/Machine/Operands.lean ====
section
/-! DEFINITION. How operands and response fields are put together (spec 00_scope.md R7, 30_encoding.md R62, R64), which
bit of a pattern is the i-th (42_pulse.md R123), and how a host fits an over-wide value into a field
(70_reset_and_hazards.md R187). -/

namespace Sys2Proof.Machine

/-- `zext_32` of a tick (R7, R82). -/
def zext32 (t : Tick) : Word := t.setWidth 32

/-- `{end, start}`: `end` in `data[31:16]`, `start` in `data[15:0]` (R64). -/
def packWaitValue (wv : WaitValue) : Word := wv.endTick ++ wv.startTick

/-- `bitOf(v, i) = (v >> i)[0]` (42_pulse.md R123). -/
def bitOf (v : Word) (i : Nat) : Bool := (v >>> i).getLsbD 0

/-- The `idx` a host sends for a parsed index: "65535 for any index above 65535" (R187; at other widths log 21). -/
def hostIdx (n : Nat) : BitVec 16 := if 65535 < n then 65535#16 else BitVec.ofNat 16 n

/-- The `onoff` a host sends for a parsed value: "255 for any on/off value above 255" (R187; at other widths log 21). -/
def hostOnoff (n : Nat) : BitVec 8 := if 255 < n then 255#8 else BitVec.ofNat 8 n

end Sys2Proof.Machine
end

