-- ==== Sys2Proof/Machine/Waveform.lean ====
section
/-! DEFINITION. The waveform of a transmission as a function: a list of segments, and one level per pulse unit
(spec 42_pulse.md R121 to R126), with its length (R133). -/

namespace Sys2Proof.Machine

/-- `hold(level, dur)` (00_scope.md R9). -/
structure Segment where
  level : Level
  dur   : Nat
  deriving DecidableEq, Repr

/-- `sym[b]` (42_pulse.md R122). -/
def symbolTiming (e : Encoding) (b : Bool) : Symbol := if b then e.sym1 else e.sym0

/-- `preamble(enc)` (R121). -/
def preamble (e : Encoding) : List Segment :=
  (if 0 < e.preambleHigh then [⟨.high, e.preambleHigh⟩] else [])
    ++ (if 0 < e.preambleLow then [⟨.low, e.preambleLow⟩] else [])

/-- `symbol(enc, b)` (R122). -/
def symbolSegments (e : Encoding) (b : Bool) : List Segment :=
  [⟨.high, (symbolTiming e b).high⟩, ⟨.low, (symbolTiming e b).low⟩]

/-- The symbols of data bits `i`, `i + 1`, …, `i + k - 1` (R124). -/
def symbolsFrom (e : Encoding) (v : Word) (i : Nat) : Nat → List Segment
  | 0 => []
  | k + 1 => symbolSegments e (bitOf v i) ++ symbolsFrom e v (i + 1) k

/-- `frame(enc, v)` (R124): the preamble, then one symbol for each of the `bitCount` bits, bit 0 first (R123). -/
def frame (e : Encoding) (v : Word) : List Segment :=
  preamble e ++ symbolsFrom e v 0 e.bitCount

/-- `[hold(L, gap)] ++ frame(enc, v)`, `k` times (R125). -/
def gapFrames (e : Encoding) (v : Word) : Nat → List Segment
  | 0 => []
  | k + 1 => ⟨.low, e.gap⟩ :: (frame e v ++ gapFrames e v k)

/-- `waveform(enc, v, rep)` (R125), with the parameter `TRAILING_GAP`. -/
def waveform (e : Encoding) (trailingGap : Bool) (v : Word) (rep : Nat) : List Segment :=
  if rep = 0 then []
  else frame e v ++ (gapFrames e v (rep - 1) ++ (if trailingGap then [⟨.low, e.gap⟩] else []))

/-- `units(list)`: one level per pulse unit (R126). -/
def units : List Segment → List Level
  | [] => []
  | g :: gs => List.replicate g.dur g.level ++ units gs

/-- The pulse units of the symbols of bits `i` to `i + k - 1` (the sum in R133). -/
def symbolUnits (e : Encoding) (v : Word) (i : Nat) : Nat → Nat
  | 0 => 0
  | k + 1 => (symbolTiming e (bitOf v i)).high + (symbolTiming e (bitOf v i)).low + symbolUnits e v (i + 1) k

/-- `F(enc, v)` (R133). -/
def frameUnits (e : Encoding) (v : Word) : Nat :=
  e.preambleHigh + e.preambleLow + symbolUnits e v 0 e.bitCount

/-- `T(enc, v, rep)` (R133). -/
def totalUnits (e : Encoding) (trailingGap : Bool) (v : Word) (rep : Nat) : Nat :=
  if rep = 0 then 0
  else rep * frameUnits e v + (rep - 1) * e.gap + (if trailingGap then e.gap else 0)

/-- The real duration of a transmission in nanoseconds, `T(enc, v, rep) * UNIT_NS` (70_reset_and_hazards.md R191). -/
def transmissionNs (c : Config) (e : Encoding) (v : Word) (rep : Nat) : Nat :=
  totalUnits e c.trailingGap v rep * c.unitNs

end Sys2Proof.Machine
end

