-- ==== Sys2Proof/Machine/PulseGen.lean ====
section
/-! DEFINITION. The generator state machine (spec 42_pulse.md R127 to R129). -/

namespace Sys2Proof.Machine

/-- A generator position `(phase, i, left)` (42_pulse.md R127). -/
structure Position where
  phase : Phase
  bit   : Nat
  left  : BitVec 16
  deriving DecidableEq, Repr

/-- The position the generator's registers hold. -/
def PulseGen.position (g : PulseGen) : Position := ⟨g.phase, g.bit, g.left⟩

/-- `dur(phase, i)` (R127). IDLE has no duration there; 0 here, and no rule reads it. -/
def dur (e : Encoding) (v : Word) (p : Position) : Nat :=
  match p.phase with
  | .idle => 0
  | .preH => e.preambleHigh
  | .preL => e.preambleLow
  | .symH => (symbolTiming e (bitOf v p.bit)).high
  | .symL => (symbolTiming e (bitOf v p.bit)).low
  | .gap => e.gap

/-- `endFrame(left)` (R127). -/
def endFrame (trailingGap : Bool) (left : BitVec 16) : Position :=
  if 0 < left.toNat ∨ trailingGap = true then ⟨.gap, 0, left⟩ else ⟨.idle, 0, 0⟩

/-- `succ(phase, i, left)` (R127). IDLE has no successor there; it stays where it is here, and no rule asks for it. -/
def succ (e : Encoding) (trailingGap : Bool) (p : Position) : Position :=
  match p.phase with
  | .idle => p
  | .preH => ⟨.preL, 0, p.left⟩
  | .preL => if 0 < e.bitCount then ⟨.symH, 0, p.left⟩ else endFrame trailingGap p.left
  | .symH => ⟨.symL, p.bit, p.left⟩
  | .symL =>
    if p.bit + 1 < e.bitCount then ⟨.symH, p.bit + 1, p.left⟩ else endFrame trailingGap p.left
  | .gap => if 0 < p.left.toNat then ⟨.preH, 0, p.left - 1⟩ else ⟨.idle, 0, 0⟩

/-- How far a position is from the end of its frame and gap. -/
def phaseRank (e : Encoding) (p : Position) : Nat :=
  match p.phase with
  | .idle => 0
  | .gap => 1
  | .symL => 2 * (e.bitCount - p.bit) + 2
  | .symH => 2 * (e.bitCount - p.bit) + 3
  | .preL => 2 * e.bitCount + 4
  | .preH => 2 * e.bitCount + 5

/-- A bound on the positions still to come, which every `succ` lowers: "Each `succ` either moves forward within a frame
of at most `2n + 2` positions, or passes a gap" (R127). It is the fuel of `adv`. -/
def positionsLeft (e : Encoding) (p : Position) : Nat :=
  (2 * e.bitCount + 6) * p.left.toNat + phaseRank e p

/-- `adv` with a bound on the positions it may skip. -/
def advWithin (e : Encoding) (trailingGap : Bool) (v : Word) : Nat → Position → Position
  | 0, p => p
  | k + 1, p =>
    if p.phase = .idle ∨ 0 < dur e v p then p else advWithin e trailingGap v k (succ e trailingGap p)

/-- `adv(p)` (R127): skip the positions of duration 0. The bound always suffices (log 13). -/
def adv (e : Encoding) (trailingGap : Bool) (v : Word) (p : Position) : Position :=
  advWithin e trailingGap v (positionsLeft e p) p

/-- `s.pg.phase <- ph ; s.pg.bit <- i ; s.pg.left <- left ; if ph != IDLE then s.pg.rem <- dur(ph, i)`, the last lines of
`start` and of `pgStep` (R128, R129). -/
def PulseGen.moveTo (g : PulseGen) (e : Encoding) (v : Word) (p : Position) : PulseGen :=
  { g with phase := p.phase, bit := p.bit, left := p.left,
           rem := if p.phase = .idle then g.rem else dur e v p }

/-- `start(pid, v, rep)` on the generator's registers (R128). -/
def PulseGen.start (g : PulseGen) (e : Encoding) (trailingGap : Bool) (pid : BitVec 8) (v : Word)
    (rep : BitVec 16) : PulseGen :=
  { g with pid := pid, val := v }.moveTo e v (adv e trailingGap v ⟨.preH, 0, rep - 1⟩)

/-- `start(pid, v, rep)` on the state (R128), where `e` is `ENC[pid]`. -/
def Block.start (s : Block) (e : Encoding) (trailingGap : Bool) (pid : BitVec 8) (v : Word) (rep : BitVec 16) :
    Block :=
  s.setPg (s.pg.start e trailingGap pid v rep)

/-- `pgStep` on the generator's registers (R129), where `e` is `ENC[s.pg.pid]`. -/
def PulseGen.step (g : PulseGen) (e : Encoding) (trailingGap : Bool) : PulseGen :=
  if 1 < g.rem then { g with rem := g.rem - 1 }
  else g.moveTo e g.val (adv e trailingGap g.val (succ e trailingGap g.position))

/-- The pulse units from a position on, over at most `k` positions. -/
def unitsWithin (e : Encoding) (trailingGap : Bool) (v : Word) : Nat → Position → Nat
  | 0, _ => 0
  | k + 1, p =>
    if p.phase = .idle then 0 else dur e v p + unitsWithin e trailingGap v k (succ e trailingGap p)

/-- The generator steps left until IDLE: the rest of the current segment and all that follows it (R129, R133). -/
def PulseGen.unitsLeft (g : PulseGen) (e : Encoding) (trailingGap : Bool) : Nat :=
  if g.phase = .idle then 0
  else g.rem + unitsWithin e trailingGap g.val (positionsLeft e g.position) (succ e trailingGap g.position)

end Sys2Proof.Machine
end

