-- ==== Sys2Proof/Machine/Agents.lean ====
section
/-! DEFINITION. The steps of the agents other than a command (spec 60_exceptions.md R161): the tick counter, the pulse
generator, reset and power-on, and a step with no move scheduled. -/

namespace Sys2Proof.Machine

/-- The tick counter's step (10_state.md R21); always enabled. -/
def blockAdvance (_ : Config) (b : Block) : Host.Outcome Block Fault Refusal :=
  .next b.advanceTick

/-- The tick counter's step under the configuration in force. -/
def tickStep (s : State) : Host.Outcome State Fault Refusal :=
  s.onBlock blockAdvance

/-- The end of a pulse unit. While the generator is busy it is `pgStep` (42_pulse.md R129); while it is IDLE the
generator has no step, and nothing changes (log 7). -/
def blockPulse (c : Config) (b : Block) : Host.Outcome Block Fault Refusal :=
  if b.pg.phase = .idle then .next b
  else
    match readEnc c b.pg.pid.toNat with
    | none => .fault .encIndexOutOfRange
    | some e => .next (b.setPg (b.pg.step e c.trailingGap))

/-- The end of a pulse unit under the configuration in force. -/
def pulseStep (s : State) : Host.Outcome State Fault Refusal :=
  s.onBlock blockPulse

/-- The configuration a reset leaves in force (70_reset_and_hazards.md R182). -/
def loadedConfig (old : Config) (load : Option Config) : Config :=
  match load with
  | none => old
  | some c => c

/-- A reset the host asserts (R180). A configuration that fails W1 to W4 is refused (20_memory.md R45; log 10). -/
def resetStep (load : Option Config) (s : State) : Host.Outcome State Fault Refusal :=
  if admitted (loadedConfig s.cfg load) then
    .next { s with toBlock := s.toBlock.resetTo (loadedConfig s.cfg load), cfg := loadedConfig s.cfg load }
  else .refused .configNotAdmitted

/-- Power-on (R37, R180). -/
def powerOnStep (load : Config) (tick0 : Tick) (s : State) : Host.Outcome State Fault Refusal :=
  if admitted load then .next { s with toBlock := s.toBlock.powerOnTo load tick0, cfg := load }
  else .refused .configNotAdmitted

/-- The generator takes its turn, and the counter's turns before its next one are drawn (log 6). -/
def State.drawTurns (s : State) : State :=
  { s with turns := Config.freeTurns s.draws, draws := s.draws + 1 }

/-- A step with no move scheduled: the host is silent and one of the enabled agents steps (R161). While the generator is
IDLE that is the tick counter. While it is busy the counter steps a number of times that is a free value, and then the
generator steps: the generator is never passed over for good, as R162 asks, and every order R162 allows is some value
(log 6). -/
def unscheduledStep (s : State) : Host.Outcome State Fault Refusal :=
  if s.pg.phase = .idle then tickStep s
  else
    match s.turns with
    | 0 => pulseStep s.drawTurns
    | k + 1 => tickStep { s with turns := k }

end Sys2Proof.Machine
end

