-- ==== Sys2Proof/Machine/Registry.lean ====
section
/-! DEFINITION. The RESOLVE command (spec 41_registry.md R102, R103). -/

namespace Sys2Proof.Machine

/-- The response of RESOLVE (R102). -/
def resolveResponse : Resolved → Response
  | .found pid pattern => ⟨pattern, pid, true⟩
  | .notFound => ⟨0, 0, false⟩

/-- The pseudocode of R102; the tables are the parameter `c` (20_memory.md R43). -/
def blockResolve (idx : BitVec 16) (onoff : BitVec 8) (c : Config) (b : Block) : Host.Outcome Block Fault Refusal :=
  .next (b.respond (resolveResponse (resolve c idx onoff)))

/-- RESOLVE (R102). -/
def execResolve (idx : BitVec 16) (onoff : BitVec 8) (s : State) : Host.Outcome State Fault Refusal :=
  s.onBlock (blockResolve idx onoff)

end Sys2Proof.Machine
end

