-- ==== Sys2Proof/Machine/Timer.lean ====
section
/-! DEFINITION. The WrapTimer commands (spec 40_timer.md R82 to R86). None of them looks at `busy` (R90). Each has the
block's step, with the configuration as a parameter (20_memory.md R43), and its meaning, that step under the
configuration in force. -/

namespace Sys2Proof.Machine

/-- `deadlineAfter(ticks)` (R83): one sample of the counter for both halves. -/
def deadlineAfter (now ticks : Tick) : WaitValue := ⟨now, now + ticks⟩

/-- The pseudocode of R82. -/
def blockTick (_ : Config) (b : Block) : Host.Outcome Block Fault Refusal :=
  .next (b.respond ⟨zext32 b.tick, 0, false⟩)

/-- TICK (R82). -/
def execTick (s : State) : Host.Outcome State Fault Refusal :=
  s.onBlock blockTick

/-- The pseudocode of R84. -/
def blockArm (ticks : BitVec 16) (_ : Config) (b : Block) : Host.Outcome Block Fault Refusal :=
  .next ((b.setWv (deadlineAfter b.tick ticks)).respond ⟨packWaitValue (deadlineAfter b.tick ticks), 0, false⟩)

/-- ARM (R84). -/
def execArm (ticks : BitVec 16) (s : State) : Host.Outcome State Fault Refusal :=
  s.onBlock (blockArm ticks)

/-- The pseudocode of R85. -/
def blockPassed (_ : Config) (b : Block) : Host.Outcome Block Fault Refusal :=
  .next (b.respond ⟨0, 0, hasPassed b.wv b.tick⟩)

/-- PASSED (R85). -/
def execPassed (s : State) : Host.Outcome State Fault Refusal :=
  s.onBlock blockPassed

/-- The pseudocode of R86: one atomic read-modify-write of `s.wv`. -/
def blockPassed1 (_ : Config) (b : Block) : Host.Outcome Block Fault Refusal :=
  .next ((b.setWv (if hasPassed b.wv b.tick then .always else b.wv)).respond ⟨0, 0, hasPassed b.wv b.tick⟩)

/-- PASSED1 (R86). -/
def execPassed1 (s : State) : Host.Outcome State Fault Refusal :=
  s.onBlock blockPassed1

end Sys2Proof.Machine
end

