-- ==== Sys2Proof/Machine/Transmit.lean ====
section
/-! DEFINITION. The commands that start a transmission (spec 42_pulse.md R130, R131). The tables are the parameter `c` of
the block's steps (20_memory.md R43). -/

namespace Sys2Proof.Machine

/-- The pseudocode of R130. The checks stand in the order of 60_exceptions.md R153: Busy, then BadProtocolId, then
`rep = 0`. -/
def blockTx (pid : BitVec 8) (rep : BitVec 16) (value : BitVec 32) (c : Config) (b : Block) :
    Host.Outcome Block Fault Refusal :=
  if b.pg.phase ≠ .idle then .next (b.raiseFault .busy)
  else
    match lookup c pid with
    | none => .next (b.raiseFault .badProtocolId)
    | some e => .next ((if 0 < rep.toNat then b.start e c.trailingGap pid value rep else b).respond Response.zero)

/-- TX (R130). -/
def execTx (pid : BitVec 8) (rep : BitVec 16) (value : BitVec 32) (s : State) : Host.Outcome State Fault Refusal :=
  s.onBlock (blockTx pid rep value)

/-- The pseudocode of R131. A found switch names an entry of ENC in every admitted configuration (20_memory.md R45 W2), so
the stop is out of reach there (log 11). -/
def blockSend (idx : BitVec 16) (onoff : BitVec 8) (rep : BitVec 16) (c : Config) (b : Block) :
    Host.Outcome Block Fault Refusal :=
  if b.pg.phase ≠ .idle then .next (b.raiseFault .busy)
  else
    match resolve c idx onoff with
    | .notFound => .next (b.respond Response.zero)
    | .found pid pattern =>
      if rep.toNat = 0 then .next (b.respond Response.zero)
      else
        match readEnc c pid.toNat with
        | none => .fault .encIndexOutOfRange
        | some e => .next ((b.start e c.trailingGap pid pattern rep).respond Response.zero)

/-- SEND (R131). -/
def execSend (idx : BitVec 16) (onoff : BitVec 8) (rep : BitVec 16) (s : State) :
    Host.Outcome State Fault Refusal :=
  s.onBlock (blockSend idx onoff rep)

end Sys2Proof.Machine
end

