-- ==== Sys2Proof/Machine/Dispatch.lean ====
section
/-! DEFINITION. One arm per command (spec 30_encoding.md R65). -/

namespace Sys2Proof.Machine

/-- The command runs in one atomic step (20_memory.md R52). -/
def exec (i : Instr) (s : State) : Host.Outcome State Fault Refusal :=
  match i with
  | .tick => Sys2Proof.Machine.execTick s
  | .arm ticks => Sys2Proof.Machine.execArm ticks s
  | .passed => Sys2Proof.Machine.execPassed s
  | .passed1 => Sys2Proof.Machine.execPassed1 s
  | .resolve idx onoff => Sys2Proof.Machine.execResolve idx onoff s
  | .tx pid rep value => Sys2Proof.Machine.execTx pid rep value s
  | .send idx onoff rep => Sys2Proof.Machine.execSend idx onoff rep s

end Sys2Proof.Machine
end

