-- ==== Sys2Proof/Machine/Port.lean ====
section
/-! DEFINITION. A transaction on the command port, and one move of one agent (spec 30_encoding.md R60,
60_exceptions.md R161). -/

namespace Sys2Proof.Machine

/-- An illegal word pair (30_encoding.md R66). -/
def blockIllegal (_ : Config) (b : Block) : Host.Outcome Block Fault Refusal :=
  .next (b.raiseFault .illegalCommand)

/-- A transaction on the command port: decode, then the command; an illegal pair raises IllegalCommand (30_encoding.md
R60, R66, R67). -/
def commandStep (cmd arg : Word) (s : State) : Host.Outcome State Fault Refusal :=
  match decodeAt s.cfg cmd arg with
  | none => s.onBlock blockIllegal
  | some i => exec i s

/-- One move of one agent. -/
def moveStep (m : Move) (s : State) : Host.Outcome State Fault Refusal :=
  match m with
  | .command cmd arg => commandStep cmd arg s
  | .tick => tickStep s
  | .pulse => pulseStep s
  | .reset load => resetStep load s
  | .powerOn load tick0 => powerOnStep load tick0 s

end Sys2Proof.Machine
end

