-- ==== Sys2Proof/Machine/Step.lean ====
section
/-! DEFINITION. One step of the block: the next move of `State.moves` (spec 60_exceptions.md R161). -/

namespace Sys2Proof.Machine

/-- One step: the oldest scheduled move is taken off the list and made; with none scheduled, an enabled agent steps
(log 5, log 6). A configuration that fails W1 to W4 is refused "before the first step" (20_memory.md R45; log 10). -/
def step (s : State) : Host.Outcome State Fault Refusal :=
  if admitted s.cfg then
    match s.moves with
    | [] => unscheduledStep s
    | m :: rest => moveStep m { s with moves := rest }
  else .refused .configNotAdmitted

/-- The state with an instruction of the opcode table's form placed as the next move of the host (log 9): the low 32
of `w`'s `nbits` bits are `cmd`, the next 32 are `arg`. -/
def State.withFetchWord (s : State) (nbits w : Nat) : State :=
  { s with moves := .command (tableWords nbits w).1 (tableWords nbits w).2 :: s.moves }

end Sys2Proof.Machine
end

