-- ==== Sys2Proof/Machine/Assembler.lean ====
section
/-! DEFINITION. What a line of a host program makes the agents do (spec 30_encoding.md R69, R70, 95_test_vectors.md
section 3). -/

namespace Sys2Proof.Machine

/-- The moves of one command, as an assembler encodes it (R69). -/
def issue (i : Instr) : List Move := [.command (encode i).1 (encode i).2]

/-- The tick-counter steps until `due` reads 1: none if it does, else the forward distance from now to the deadline's
end (40_timer.md R81). -/
def ticksUntilDue (s : State) : Nat :=
  if s.due then 0 else (s.wv.endTick - s.tick).toNat

/-- The generator steps until `busy` reads 0 (42_pulse.md R133). -/
def pulsesUntilIdle (s : State) : Nat :=
  match readEnc s.cfg s.pg.pid.toNat with
  | none => 0
  | some e => s.pg.unitsLeft e s.cfg.trailingGap

/-- The moves a line stands for; `none` is a line the assembler refuses (R69). A waiting line issues no command (R70): the
host polls while the agent it waits for steps, and no other agent does in between (log 16). -/
def lineMoves (s : State) (l : Line) : Option (List Move) :=
  if l.fits then
    match l with
    | .tick => some (issue .tick)
    | .arm ticks => some (issue (.arm (BitVec.ofNat 16 ticks)))
    | .passed => some (issue .passed)
    | .passed1 => some (issue .passed1)
    | .resolve idx onoff => some (issue (.resolve (BitVec.ofNat 16 idx) (BitVec.ofNat 8 onoff)))
    | .tx pid rep value => some (issue (.tx (BitVec.ofNat 8 pid) (BitVec.ofNat 16 rep) (BitVec.ofNat 32 value)))
    | .send idx onoff rep => some (issue (.send (BitVec.ofNat 16 idx) (BitVec.ofNat 8 onoff) (BitVec.ofNat 16 rep)))
    | .raw c a => some [.command (BitVec.ofNat 32 c) (BitVec.ofNat 32 a)]
    | .disarm => some (issue (.arm 0))
    | .waitIdle => some (List.replicate (pulsesUntilIdle s) .pulse)
    | .waitDue => some (List.replicate (ticksUntilDue s) .tick)
    | .waitTicks n => some (List.replicate n .tick)
  else none

end Sys2Proof.Machine
end

