-- ==== Sys2Proof/Machine/Source.lean ====
section
/-! DEFINITION. The text of a host program: literals, operands, comments and mnemonics (spec 30_encoding.md R69, R70).
Text is a list of characters. What R69 leaves open about white space and case is log 19. -/

namespace Sys2Proof.Machine

/-- A character that separates and has no meaning of its own (log 19). -/
def isSpace (c : Char) : Bool := decide (c = ' ') || decide (c = '\t')

/-- The text before a comment: "`;` starts a comment" (R69). -/
def dropComment (cs : List Char) : List Char := cs.takeWhile fun c => decide (c ≠ ';')

/-- The text without the spaces around it. -/
def trim (cs : List Char) : List Char := ((cs.dropWhile isSpace).reverse.dropWhile isSpace).reverse

/-- The value of one digit, in either case. -/
def digitValue (c : Char) : Option Nat :=
  if '0'.toNat ≤ c.toNat ∧ c.toNat ≤ '9'.toNat then some (c.toNat - '0'.toNat)
  else if 'a'.toNat ≤ c.toNat ∧ c.toNat ≤ 'f'.toNat then some (c.toNat - 'a'.toNat + 10)
  else if 'A'.toNat ≤ c.toNat ∧ c.toNat ≤ 'F'.toNat then some (c.toNat - 'A'.toNat + 10)
  else none

/-- Read digits of a base, most significant first, after the value `acc` of those already read. -/
def readDigits (base acc : Nat) : List Char → Option Nat
  | [] => some acc
  | c :: cs =>
    match digitValue c with
    | none => none
    | some d => if d < base then readDigits base (acc * base + d) cs else none

/-- "a decimal, `0x` hexadecimal or `0b` binary unsigned literal" (R69), with at least one digit. -/
def readLiteral : List Char → Option Nat
  | [] => none
  | '0' :: 'x' :: c :: cs => readDigits 16 0 (c :: cs)
  | '0' :: 'b' :: c :: cs => readDigits 2 0 (c :: cs)
  | c :: cs => readDigits 10 0 (c :: cs)

/-- The fields between the commas (R69). -/
def commaFields : List Char → List (List Char)
  | [] => [[]]
  | c :: cs =>
    if c = ',' then [] :: commaFields cs
    else
      match commaFields cs with
      | [] => [[c]]
      | f :: fs => (c :: f) :: fs

/-- All the literals, or none where one is malformed. -/
def readLiterals : List (List Char) → Option (List Nat)
  | [] => some []
  | f :: fs =>
    match readLiteral (trim f), readLiterals fs with
    | some n, some ns => some (n :: ns)
    | _, _ => none

/-- The operands after a mnemonic: none, or literals with commas between (R69). -/
def readOperands (cs : List Char) : Option (List Nat) :=
  if trim cs = [] then some [] else readLiterals (commaFields cs)

/-- A line with no operand. -/
def formWith0 (l : Line) : List Nat → Option Line
  | [] => some l
  | _ :: _ => none

/-- A line with one operand. -/
def formWith1 (f : Nat → Line) : List Nat → Option Line
  | [a] => some (f a)
  | _ => none

/-- A line with two operands. -/
def formWith2 (f : Nat → Nat → Line) : List Nat → Option Line
  | [a, b] => some (f a b)
  | _ => none

/-- A line with three operands. -/
def formWith3 (f : Nat → Nat → Nat → Line) : List Nat → Option Line
  | [a, b, c] => some (f a b c)
  | _ => none

/-- The forms of R69 and the pseudo-instructions of R70. -/
def lineOf (mnemonic : List Char) (operands : List Nat) : Option Line :=
  if mnemonic = ['T', 'I', 'C', 'K'] then formWith0 .tick operands
  else if mnemonic = ['A', 'R', 'M'] then formWith1 .arm operands
  else if mnemonic = ['P', 'A', 'S', 'S', 'E', 'D'] then formWith0 .passed operands
  else if mnemonic = ['P', 'A', 'S', 'S', 'E', 'D', '1'] then formWith0 .passed1 operands
  else if mnemonic = ['R', 'E', 'S', 'O', 'L', 'V', 'E'] then formWith2 .resolve operands
  else if mnemonic = ['T', 'X'] then formWith3 .tx operands
  else if mnemonic = ['S', 'E', 'N', 'D'] then formWith3 .send operands
  else if mnemonic = ['R', 'A', 'W'] then formWith2 .raw operands
  else if mnemonic = ['D', 'I', 'S', 'A', 'R', 'M'] then formWith0 .disarm operands
  else if mnemonic = ['W', 'A', 'I', 'T', 'I', 'D', 'L', 'E'] then formWith0 .waitIdle operands
  else if mnemonic = ['W', 'A', 'I', 'T', 'D', 'U', 'E'] then formWith0 .waitDue operands
  else if mnemonic = ['W', 'A', 'I', 'T', 'T', 'I', 'C', 'K', 'S'] then formWith1 .waitTicks operands
  else none

/-- One line of text: no line for an empty one or a comment alone, one line for a command whose operands fit their
fields, and `none` for text the assembler refuses (R69). -/
def readLine (text : List Char) : Option (List Line) :=
  let cs := trim (dropComment text)
  if cs = [] then some []
  else
    match readOperands (cs.dropWhile (!isSpace ·)) with
    | none => none
    | some operands =>
      match lineOf (cs.takeWhile (!isSpace ·)) operands with
      | none => none
      | some l => if l.fits then some [l] else none

/-- The lines of a program, "one command per line" (R69). -/
def readProgram : List (List Char) → Option (List Line)
  | [] => some []
  | t :: ts =>
    match readLine t, readProgram ts with
    | some ls, some rest => some (ls ++ rest)
    | _, _ => none

end Sys2Proof.Machine
end

