-- ==== Sys2Proof/Safety.lean ====
section
/-! DEFINITION. The terms claims about runs use: the invariant of the reachable states, which moves are resets, a
faulted run, infinite runs and their fairness (spec 10_state.md R30, 60_exceptions.md R162, R166). -/

namespace Sys2Proof.Machine

/-- The bounds of 10_state.md R30 on a busy generator that sends with Encoding `e`: the bit index is below `bitCount`
in a symbol, `rem` is between 1 and the length of the current segment, and at most 65534 transmissions are left. -/
structure PulseGen.InRange (g : PulseGen) (e : Encoding) : Prop where
  bit_lt   : g.phase = .symH ∨ g.phase = .symL → g.bit < e.bitCount
  rem_pos  : 1 ≤ g.rem
  rem_le   : g.rem ≤ dur e g.val g.position
  left_le  : g.left.toNat ≤ 65534

/-- The invariant: the loaded configuration passes W1 to W4 (20_memory.md R45), each generator register fits its width
(00_scope.md R5), and while the generator is busy its latched protocol exists (42_pulse.md R128) and its registers are in
range (10_state.md R30). -/
structure State.Inv (s : State) : Prop where
  cfg_admitted : admitted s.cfg = true
  rem_fits     : s.pg.rem < 2 ^ s.cfg.durW
  bit_fits     : s.pg.bit < 2 ^ s.cfg.bcW
  left_fits    : s.pg.left.toNat < 2 ^ s.cfg.repW
  pid_fits     : s.pg.pid.toNat < 2 ^ s.cfg.pidW
  busy_ok      : s.busy = true → ∃ e, readEnc s.cfg s.pg.pid.toNat = some e ∧ s.pg.InRange e

/-- The move is a reset, asserted by the host or by power-on (70_reset_and_hazards.md R180). -/
def Move.isReset : Move → Bool
  | .command _ _ => false
  | .tick => false
  | .pulse => false
  | .reset _ => true
  | .powerOn _ _ => true

/-- The move ends a pulse unit. -/
def Move.isPulse : Move → Bool
  | .command _ _ => false
  | .tick => false
  | .pulse => true
  | .reset _ => false
  | .powerOn _ _ => false

/-- "A run in which `s.fault ≠ 0` is a faulted run" (60_exceptions.md R166). -/
def State.faulted (s : State) : Bool := decide (s.fault ≠ .noFault)

/-- The two states agree on everything the spec says can matter: all but the generator registers a reset leaves
unspecified (10_state.md R36), which count only while the generator is busy. -/
def State.Agree (s t : State) : Prop :=
  s.cfg = t.cfg ∧ s.tick = t.tick ∧ s.wv = t.wv ∧ s.fault = t.fault ∧ s.pg.phase = t.pg.phase ∧ s.resp = t.resp ∧
    s.moves = t.moves ∧ s.turns = t.turns ∧ s.draws = t.draws ∧ (s.busy = true → s.pg = t.pg)

/-- `r` is an infinite run in which the agents make the moves `ms`, one a step: `r n` is the state before move `n`. The
moves come one at a time from outside, so every infinite interleaving of R161 is such a run. -/
structure RunOf (r : Nat → State) (ms : Nat → Move) : Prop where
  no_other : ∀ n, (r n).moves = []
  makes    : ∀ n, step { r n with moves := [ms n] } = .next (r (n + 1))

/-- "the tick counter steps infinitely often, and while `s.pg.phase ≠ IDLE` the pulse generator eventually steps (weak
fairness)" (60_exceptions.md R162). -/
structure WeaklyFair (r : Nat → State) (ms : Nat → Move) : Prop where
  counter   : ∀ n, ∃ m, n ≤ m ∧ ms m = .tick
  generator : ∀ n, (∀ m, n ≤ m → (r m).busy = true) → ∃ m, n ≤ m ∧ ms m = .pulse

end Sys2Proof.Machine
end

