-- ==== Sys2Proof/Certificates/Slice0/Obligations.lean ====
section
/-! DEFINITION. The statements for the provers: what the rules of spec/ say the commands, the agents and the machine do. -/

open Sys2Proof Sys2Proof.Machine

/-! ## The commands: each answers a next state, written out whole, so the statement is its frame too -/

/-- 40_timer.md R82: TICK answers the counter, zero-extended, and writes nothing else. -/
def Obligations.TickAnswersTheCounter : Prop :=
  (∀ arg, decode 0x10000000#32 arg = some .tick) ∧
  ∀ s : State, exec .tick s = .next { s with resp := some ⟨BitVec.ofNat 32 s.tick.toNat, 0, false⟩ }

/-- 40_timer.md R83, R84: ARM writes `(now, now +16 ticks)` from one sample, both halves at once, and answers
`{end, start}`. -/
def Obligations.ArmWritesTheDeadline : Prop :=
  (∀ (ticks : BitVec 16) (arg : Word), decode (0x20000000#32 ||| ticks.setWidth 32) arg = some (.arm ticks)) ∧
  ∀ (s : State) (ticks : BitVec 16),
    exec (.arm ticks) s = .next
      { s with
        wv := ⟨s.tick, BitVec.ofNat 16 (s.tick.toNat + ticks.toNat)⟩
        resp := some ⟨BitVec.ofNat 32 ((s.tick.toNat + ticks.toNat) % 65536 * 65536 + s.tick.toNat), 0, false⟩ }

/-- 40_timer.md R85 with the predicate of R80 written out: PASSED answers the flag, which is the `due` output at the same
tick, and writes nothing else. -/
def Obligations.PassedTestsTheDeadline : Prop :=
  (∀ arg, decode 0x30000000#32 arg = some .passed) ∧
  ∀ s : State, exec .passed s = .next
    { s with
      resp := some ⟨0, 0, decide (
        if s.wv.startTick.toNat ≤ s.wv.endTick.toNat then
          s.wv.endTick.toNat ≤ s.tick.toNat ∨ s.tick.toNat < s.wv.startTick.toNat
        else s.tick.toNat < s.wv.startTick.toNat ∧ s.wv.endTick.toNat ≤ s.tick.toNat)⟩ } ∧
      exec .passed s = .next { s with resp := some ⟨0, 0, s.due⟩ }

/-- 40_timer.md R86: PASSED1 answers what PASSED answers, and writes `(0, 0)` exactly when that is 1. -/
def Obligations.PassedOnceConsumesTheDeadline : Prop :=
  (∀ arg, decode 0x40000000#32 arg = some .passed1) ∧
  ∀ s : State,
    (hasPassed s.wv s.tick = true →
      exec .passed1 s = .next { s with wv := ⟨0, 0⟩, resp := some ⟨0, 0, true⟩ }) ∧
    (hasPassed s.wv s.tick = false → exec .passed1 s = .next { s with resp := some ⟨0, 0, false⟩ })

/-- 41_registry.md R101, R102: RESOLVE answers the pattern, the protocol id and the found flag, and writes nothing else. -/
def Obligations.ResolveLooksUpTheSwitch : Prop :=
  (∀ (idx : BitVec 16) (onoff : BitVec 8) (arg : Word),
    decode (0x50000000#32 ||| (onoff.setWidth 32 <<< 16) ||| idx.setWidth 32) arg = some (.resolve idx onoff)) ∧
  ∀ (s : State) (idx : BitVec 16) (onoff : BitVec 8),
    (s.cfg.sw.length ≤ idx.toNat ∨ 1 < onoff.toNat →
      exec (.resolve idx onoff) s = .next { s with resp := some ⟨0, 0, false⟩ }) ∧
    ∀ x, s.cfg.sw[idx.toNat]? = some x →
      (onoff = 0 → exec (.resolve idx onoff) s = .next { s with resp := some ⟨x.off, x.protocolId, true⟩ }) ∧
      (onoff = 1 → exec (.resolve idx onoff) s = .next { s with resp := some ⟨x.on, x.protocolId, true⟩ })

/-- 42_pulse.md R130: TX starts a transmission, sends nothing for `rep = 0`, or faults with Busy or BadProtocolId, Busy
first and BadProtocolId before the `rep = 0` return. -/
def Obligations.TxStartsOrFaults : Prop :=
  (∀ (pid : BitVec 8) (rep : BitVec 16) (value : Word),
    decode (0x60000000#32 ||| (rep.setWidth 32 <<< 8) ||| pid.setWidth 32) value = some (.tx pid rep value)) ∧
  ∀ (s : State) (pid : BitVec 8) (rep : BitVec 16) (value : BitVec 32),
    (s.pg.phase ≠ .idle → exec (.tx pid rep value) s = .next
      { s with fault := if s.fault = .noFault then .busy else s.fault, resp := some ⟨0, 0, false⟩ }) ∧
    (s.pg.phase = .idle → s.cfg.enc.length ≤ pid.toNat → exec (.tx pid rep value) s = .next
      { s with fault := if s.fault = .noFault then .badProtocolId else s.fault, resp := some ⟨0, 0, false⟩ }) ∧
    (s.pg.phase = .idle → pid.toNat < s.cfg.enc.length → rep = 0 →
      exec (.tx pid rep value) s = .next { s with resp := some ⟨0, 0, false⟩ }) ∧
    ∀ e, s.pg.phase = .idle → s.cfg.enc[pid.toNat]? = some e → rep ≠ 0 → exec (.tx pid rep value) s = .next
      { s with pg := s.pg.start e s.cfg.trailingGap pid value rep, resp := some ⟨0, 0, false⟩ }

/-- 42_pulse.md R131: SEND resolves and starts the switch's pattern, or does nothing, with one response for both; its one
fault is Busy, raised before the switch is looked up. -/
def Obligations.SendStartsOrDoesNothing : Prop :=
  (∀ (idx : BitVec 16) (onoff : BitVec 8) (arg : Word),
    decode (0x70000000#32 ||| (onoff.setWidth 32 <<< 16) ||| idx.setWidth 32) arg =
      some (.send idx onoff (BitVec.ofNat 16 arg.toNat))) ∧
  ∀ (s : State) (idx : BitVec 16) (onoff : BitVec 8) (rep : BitVec 16), admitted s.cfg = true →
    (s.pg.phase ≠ .idle → exec (.send idx onoff rep) s = .next
      { s with fault := if s.fault = .noFault then .busy else s.fault, resp := some ⟨0, 0, false⟩ }) ∧
    (s.pg.phase = .idle → s.cfg.sw.length ≤ idx.toNat ∨ 1 < onoff.toNat ∨ rep = 0 →
      exec (.send idx onoff rep) s = .next { s with resp := some ⟨0, 0, false⟩ }) ∧
    ∀ x, s.pg.phase = .idle → s.cfg.sw[idx.toNat]? = some x → onoff.toNat ≤ 1 → rep ≠ 0 →
      ∃ e, s.cfg.enc[x.protocolId.toNat]? = some e ∧ exec (.send idx onoff rep) s = .next
        { s with
          pg := s.pg.start e s.cfg.trailingGap x.protocolId (if onoff = 0 then x.off else x.on) rep
          resp := some ⟨0, 0, false⟩ }

/-- 92_eei_decisions.md D30 "it equals RESOLVE followed by TX": on a found switch SEND does exactly what TX does with the
protocol id and the pattern that RESOLVE answers, in every state of the generator. -/
def Obligations.SendIsResolveThenTx : Prop :=
  ∀ (s r : State) (idx : BitVec 16) (onoff : BitVec 8) (rep : BitVec 16) (a : Response), admitted s.cfg = true →
    exec (.resolve idx onoff) s = .next r → r.resp = some a → a.flag = true →
    exec (.send idx onoff rep) s = exec (.tx a.aux rep a.data) s

/-! ## Encoding -/

/-- 30_encoding.md R67 and R63, both directions at once: a word pair decodes to a command exactly when `cmd` is that
command's word and `arg` agrees with its argument word on the bits the command reads. -/
def Obligations.DecodeInvertsEncode : Prop :=
  ∀ (cmd arg : Word) (i : Instr),
    decode cmd arg = some i ↔ cmd = (encode i).1 ∧ arg &&& argMask i = (encode i).2

/-- 30_encoding.md R66, R63: which command words are illegal, and that such a word raises IllegalCommand and does nothing
else. -/
def Obligations.IllegalWordsFault : Prop :=
  (∀ cmd arg : Word, decode cmd arg = none ↔
    (cmd.toNat / 2 ^ 28 = 0 ∨ 8 ≤ cmd.toNat / 2 ^ 28 ∨
      ((cmd.toNat / 2 ^ 28 = 1 ∨ cmd.toNat / 2 ^ 28 = 3 ∨ cmd.toNat / 2 ^ 28 = 4) ∧ cmd.toNat % 2 ^ 28 ≠ 0) ∨
      (cmd.toNat / 2 ^ 28 = 2 ∧ cmd.toNat / 2 ^ 16 % 2 ^ 12 ≠ 0) ∨
      ((cmd.toNat / 2 ^ 28 = 5 ∨ cmd.toNat / 2 ^ 28 = 6 ∨ cmd.toNat / 2 ^ 28 = 7) ∧
        cmd.toNat / 2 ^ 24 % 2 ^ 4 ≠ 0))) ∧
  ∀ (s : State) (cmd arg : Word) (rest : List Move),
    admitted s.cfg = true → s.moves = .command cmd arg :: rest → decode cmd arg = none →
    step s = .next
      { s with
        moves := rest
        fault := if s.fault = .noFault then .illegalCommand else s.fault
        resp := some ⟨0, 0, false⟩ }

/-- 30_encoding.md R65: a word decodes to a command exactly when it selects that command's row, the rows are disjoint, and
`arg` takes no part in the selection. -/
def Obligations.OpcodeMapSelects : Prop :=
  opcodeMap =
    [⟨0x10000000#32, 0xFFFFFFFF#32⟩, ⟨0x20000000#32, 0xFFFF0000#32⟩, ⟨0x30000000#32, 0xFFFFFFFF#32⟩,
      ⟨0x40000000#32, 0xFFFFFFFF#32⟩, ⟨0x50000000#32, 0xFF000000#32⟩, ⟨0x60000000#32, 0xFF000000#32⟩,
      ⟨0x70000000#32, 0xFF000000#32⟩] ∧
  (∀ ticks, rowOf (.arm ticks) = rowOf (.arm 0)) ∧
  (∀ idx onoff, rowOf (.resolve idx onoff) = rowOf (.resolve 0 0)) ∧
  (∀ pid rep value, rowOf (.tx pid rep value) = rowOf (.tx 0 0 0)) ∧
  (∀ idx onoff rep, rowOf (.send idx onoff rep) = rowOf (.send 0 0 0)) ∧
  (∀ (cmd arg : Word) (i : Instr), decode cmd arg = some i → (rowOf i).selects cmd = true) ∧
  (∀ cmd arg : Word, decode cmd arg = none → ∀ r ∈ opcodeMap, r.selects cmd = false) ∧
  (∀ (cmd : Word) (r q : OpcodeRow), r ∈ opcodeMap → q ∈ opcodeMap → r.selects cmd = true → q.selects cmd = true →
    r = q) ∧
  ∀ cmd a b : Word, (decode cmd a).map rowOf = (decode cmd b).map rowOf

/-- Words written out bit by bit from 30_encoding.md R61 and R65, one for each command. -/
def Obligations.WordsOfTheSpecDecode : Prop :=
  decode 0b00010000000000000000000000000000#32 0#32 = some .tick ∧
  decode 0b00100000000000000001111010000100#32 0#32 = some (.arm 7812) ∧
  decode 0b00110000000000000000000000000000#32 0#32 = some .passed ∧
  decode 0b01000000000000000000000000000000#32 0#32 = some .passed1 ∧
  decode 0b01010000000000010000000001100011#32 0#32 = some (.resolve 99 1) ∧
  decode 0b01100000000000000000001000000001#32 0xA#32 = some (.tx 1 2 0xA) ∧
  decode 0b01110000000000010000000000000010#32 0xABCD0003#32 = some (.send 2 1 3)

/-- 30_encoding.md R69, R70: every line whose operands fit their fields becomes one command that decodes to the same
operands, with 0 in an `arg` the command does not use; a line with an operand that does not fit is refused; `RAW` issues its
pair as it stands, `DISARM` is `ARM 0`, and `WAITTICKS n` is `n` steps of the counter and no command (log 16). -/
def Obligations.AssemblerKeepsOperands : Prop :=
  ∀ s : State,
    (∃ cmd, lineMoves s .tick = some [.command cmd 0] ∧ decode cmd 0 = some .tick) ∧
    (∃ cmd, lineMoves s .passed = some [.command cmd 0] ∧ decode cmd 0 = some .passed) ∧
    (∃ cmd, lineMoves s .passed1 = some [.command cmd 0] ∧ decode cmd 0 = some .passed1) ∧
    lineMoves s .disarm = lineMoves s (.arm 0) ∧
    (∀ n : Nat, (2 ^ 16 ≤ n → lineMoves s (.arm n) = none) ∧
      (n < 2 ^ 16 → ∃ cmd k, lineMoves s (.arm n) = some [.command cmd 0] ∧ decode cmd 0 = some (.arm k) ∧
        k.toNat = n)) ∧
    (∀ n m : Nat, (2 ^ 16 ≤ n ∨ 2 ^ 8 ≤ m → lineMoves s (.resolve n m) = none) ∧
      (n < 2 ^ 16 → m < 2 ^ 8 → ∃ cmd i o, lineMoves s (.resolve n m) = some [.command cmd 0] ∧
        decode cmd 0 = some (.resolve i o) ∧ i.toNat = n ∧ o.toNat = m)) ∧
    (∀ n m k : Nat, (2 ^ 8 ≤ n ∨ 2 ^ 16 ≤ m ∨ 2 ^ 32 ≤ k → lineMoves s (.tx n m k) = none) ∧
      (n < 2 ^ 8 → m < 2 ^ 16 → k < 2 ^ 32 → ∃ cmd arg p r v, lineMoves s (.tx n m k) = some [.command cmd arg] ∧
        decode cmd arg = some (.tx p r v) ∧ p.toNat = n ∧ r.toNat = m ∧ v.toNat = k)) ∧
    (∀ n m k : Nat, (2 ^ 16 ≤ n ∨ 2 ^ 8 ≤ m ∨ 2 ^ 16 ≤ k → lineMoves s (.send n m k) = none) ∧
      (n < 2 ^ 16 → m < 2 ^ 8 → k < 2 ^ 16 → ∃ cmd arg i o r, lineMoves s (.send n m k) = some [.command cmd arg] ∧
        decode cmd arg = some (.send i o r) ∧ i.toNat = n ∧ o.toNat = m ∧ r.toNat = k)) ∧
    (∀ n m : Nat, (2 ^ 32 ≤ n ∨ 2 ^ 32 ≤ m → lineMoves s (.raw n m) = none) ∧
      (n < 2 ^ 32 → m < 2 ^ 32 → lineMoves s (.raw n m) = some [.command (BitVec.ofNat 32 n) (BitVec.ofNat 32 m)])) ∧
    ∀ n : Nat, lineMoves s (.waitTicks n) = some (List.replicate n .tick)

/-- 30_encoding.md, assembler syntax: a line of text stands for at most one command or wait, and each operand of an accepted
line is below the size of its field, so the line stands for moves in every state. -/
def Obligations.AcceptedTextFits : Prop :=
  ∀ (text : List Char) (ls : List Line), readLine text = some ls →
    ls.length ≤ 1 ∧ ∀ l ∈ ls, (∀ s : State, ∃ ms, lineMoves s l = some ms) ∧
      (∀ n, l = .arm n → n < 2 ^ 16) ∧
      (∀ n m, l = .resolve n m → n < 2 ^ 16 ∧ m < 2 ^ 8) ∧
      (∀ n m k, l = .tx n m k → n < 2 ^ 8 ∧ m < 2 ^ 16 ∧ k < 2 ^ 32) ∧
      (∀ n m k, l = .send n m k → n < 2 ^ 16 ∧ m < 2 ^ 8 ∧ k < 2 ^ 16) ∧
      (∀ n m, l = .raw n m → n < 2 ^ 32 ∧ m < 2 ^ 32)

/-- 30_encoding.md, assembler syntax: what the text of each mnemonic reads as, with its operands in decimal, hexadecimal or
binary, with or without a comment, and that an operand too big for its field is refused. The spaces and the capitals of the
texts are the model's choice (log 19). -/
def Obligations.TextReadsAsItsLine : Prop :=
  ∀ tail : List Char, tail = [] ∨ (∃ comment, tail = ';' :: comment) →
    let numeral := fun (n : Nat) (text : List Char) =>
      text = Nat.toDigits 10 n ∨ text = '0' :: 'x' :: Nat.toDigits 16 n ∨ text = '0' :: 'b' :: Nat.toDigits 2 n
    readLine tail = some [] ∧
    readLine (['T', 'I', 'C', 'K'] ++ tail) = some [.tick] ∧
    readLine (['P', 'A', 'S', 'S', 'E', 'D'] ++ tail) = some [.passed] ∧
    readLine (['P', 'A', 'S', 'S', 'E', 'D', '1'] ++ tail) = some [.passed1] ∧
    readLine (['D', 'I', 'S', 'A', 'R', 'M'] ++ tail) = some [.disarm] ∧
    readLine (['W', 'A', 'I', 'T', 'I', 'D', 'L', 'E'] ++ tail) = some [.waitIdle] ∧
    readLine (['W', 'A', 'I', 'T', 'D', 'U', 'E'] ++ tail) = some [.waitDue] ∧
    ∀ (n m k : Nat) (a b c : List Char), numeral n a → numeral m b → numeral k c →
      readLine (['A', 'R', 'M', ' '] ++ a ++ tail) = (if n < 2 ^ 16 then some [.arm n] else none) ∧
      readLine (['W', 'A', 'I', 'T', 'T', 'I', 'C', 'K', 'S', ' '] ++ a ++ tail) = some [.waitTicks n] ∧
      readLine (['R', 'E', 'S', 'O', 'L', 'V', 'E', ' '] ++ a ++ [',', ' '] ++ b ++ tail) =
        (if n < 2 ^ 16 ∧ m < 2 ^ 8 then some [.resolve n m] else none) ∧
      readLine (['R', 'A', 'W', ' '] ++ a ++ [',', ' '] ++ b ++ tail) =
        (if n < 2 ^ 32 ∧ m < 2 ^ 32 then some [.raw n m] else none) ∧
      readLine (['T', 'X', ' '] ++ a ++ [',', ' '] ++ b ++ [',', ' '] ++ c ++ tail) =
        (if n < 2 ^ 8 ∧ m < 2 ^ 16 ∧ k < 2 ^ 32 then some [.tx n m k] else none) ∧
      readLine (['S', 'E', 'N', 'D', ' '] ++ a ++ [',', ' '] ++ b ++ [',', ' '] ++ c ++ tail) =
        (if n < 2 ^ 16 ∧ m < 2 ^ 8 ∧ k < 2 ^ 16 then some [.send n m k] else none)

/-- 00_scope.md, the width parameters: under widths no smaller than the fields of 30_encoding.md R61, the printed ones among
them, the command is what `decode` gives; under a smaller one an operand in `cmd` that does not fit makes it illegal, and SEND
reads its repeat count from that many bits of `arg`. Widths other than the printed ones are the model's choice (log 15). -/
def Obligations.OperandWidthsOfTheConfiguration : Prop :=
  (∀ (c : Config) (cmd arg : Word), 16 ≤ c.idxW → 8 ≤ c.onoffW → 8 ≤ c.pidW → 16 ≤ c.repW →
    decodeAt c cmd arg = decode cmd arg) ∧
  (∀ (c : Config) (cmd arg : Word), decode cmd arg = none → decodeAt c cmd arg = none) ∧
  ∀ (c : Config) (cmd arg : Word) (i : Instr), decode cmd arg = some i →
    (i = .tick ∨ i = .passed ∨ i = .passed1 ∨ (∃ ticks, i = .arm ticks) → decodeAt c cmd arg = some i) ∧
    (∀ idx onoff, i = .resolve idx onoff →
      (idx.toNat < 2 ^ c.idxW → onoff.toNat < 2 ^ c.onoffW → decodeAt c cmd arg = some i) ∧
      (2 ^ c.idxW ≤ idx.toNat ∨ 2 ^ c.onoffW ≤ onoff.toNat → decodeAt c cmd arg = none)) ∧
    (∀ pid rep value, i = .tx pid rep value →
      (pid.toNat < 2 ^ c.pidW → rep.toNat < 2 ^ c.repW → decodeAt c cmd arg = some i) ∧
      (2 ^ c.pidW ≤ pid.toNat ∨ 2 ^ c.repW ≤ rep.toNat → decodeAt c cmd arg = none)) ∧
    ∀ idx onoff rep, i = .send idx onoff rep →
      (idx.toNat < 2 ^ c.idxW → onoff.toNat < 2 ^ c.onoffW →
        ∃ r, decodeAt c cmd arg = some (.send idx onoff r) ∧ r.toNat = rep.toNat % 2 ^ c.repW) ∧
      (2 ^ c.idxW ≤ idx.toNat ∨ 2 ^ c.onoffW ≤ onoff.toNat → decodeAt c cmd arg = none)

/-! ## The step -/

/-- A step runs the decoded command: the move is taken off the list and the command is `exec`'s (20_memory.md R52,
30_encoding.md R60). What `decodeAt` gives is said by `OperandWidthsOfTheConfiguration`. -/
def Obligations.StepRunsTheDecodedCommand : Prop :=
  ∀ (s : State) (cmd arg : Word) (rest : List Move) (i : Instr),
    admitted s.cfg = true → s.moves = .command cmd arg :: rest → decodeAt s.cfg cmd arg = some i →
    step s = exec i { s with moves := rest }

/-- 60_exceptions.md R151, R152, R153: the order of the checks, what a faulting command does, and that no other command
writes the fault code. The first fault since reset is kept. -/
def Obligations.FaultOrderAndEffect : Prop :=
  ∀ (s : State) (cmd arg : Word) (rest : List Move),
    admitted s.cfg = true → s.moves = .command cmd arg :: rest →
    let faulted := fun code : FaultCode => (.next
      { s with
        moves := rest
        fault := if s.fault = .noFault then code else s.fault
        resp := some ⟨0, 0, false⟩ } : Host.Outcome State Fault Refusal)
    (decodeAt s.cfg cmd arg = none → step s = faulted .illegalCommand) ∧
    (∀ pid rep value, decodeAt s.cfg cmd arg = some (.tx pid rep value) →
      (s.busy = true → step s = faulted .busy) ∧
      (s.busy = false → s.cfg.enc.length ≤ pid.toNat → step s = faulted .badProtocolId) ∧
      (s.busy = false → pid.toNat < s.cfg.enc.length → ∃ t, step s = .next t ∧ t.fault = s.fault)) ∧
    (∀ idx onoff rep, decodeAt s.cfg cmd arg = some (.send idx onoff rep) →
      (s.busy = true → step s = faulted .busy) ∧
      (s.busy = false → ∃ t, step s = .next t ∧ t.fault = s.fault)) ∧
    (∀ i, decodeAt s.cfg cmd arg = some i → (∀ pid rep value, i ≠ .tx pid rep value) →
      (∀ idx onoff rep, i ≠ .send idx onoff rep) → ∃ t, step s = .next t ∧ t.fault = s.fault)

/-- 60_exceptions.md R151: `raise Fault(code)` records the code only while none is recorded; and over every step, once a
code is recorded only a reset changes it, and reset clears it. -/
def Obligations.OnlyResetClearsTheFault : Prop :=
  (∀ (s : State) (code : FaultCode), code ≠ .noFault →
    (s.fault = .noFault → (s.raiseFault code).fault = code) ∧
    (s.fault ≠ .noFault → (s.raiseFault code).fault = s.fault)) ∧
  ∀ s t : State, step s = .next t →
    (s.fault ≠ .noFault → (∀ m rest, s.moves = m :: rest → m.isReset = false) → t.fault = s.fault) ∧
    (∀ m rest, s.moves = m :: rest → m.isReset = true → t.fault = .noFault)

/-- 10_state.md R26: ARM, PASSED1 and reset are the only writers of the WaitValue, and each writes both halves. -/
def Obligations.OnlyThreeWritersOfTheWaitValue : Prop :=
  ∀ s t : State, step s = .next t → t.wv ≠ s.wv →
    ∃ m rest, s.moves = m :: rest ∧
      ((∃ cmd arg ticks, m = .command cmd arg ∧ decode cmd arg = some (.arm ticks) ∧
          t.wv = ⟨s.tick, s.tick + ticks⟩) ∨
        (∃ cmd arg, m = .command cmd arg ∧ decode cmd arg = some .passed1 ∧ hasPassed s.wv s.tick = true ∧
          t.wv = ⟨0, 0⟩) ∨
        (m.isReset = true ∧ t.wv = ⟨0, 0⟩))

/-- 10_state.md R21: the counter's step adds 1 modulo 65536 and gives no sign of the wrap; no other scheduled move writes
the counter, but for a power-on, which takes the draw `tick0` (R35, R180). -/
def Obligations.OnlyTheCounterAgentMovesTheTick : Prop :=
  (∀ (s : State) (rest : List Move), admitted s.cfg = true → s.moves = .tick :: rest →
    step s = .next { s with moves := rest, tick := BitVec.ofNat 16 ((s.tick.toNat + 1) % 65536) }) ∧
  ∀ (s t : State) (m : Move) (rest : List Move), s.moves = m :: rest → step s = .next t → m ≠ .tick →
    t.tick = s.tick ∨ ∃ c, m = .powerOn c t.tick

/-- 20_memory.md R57, R43: no command, and no step but a reset that loads another configuration, changes the tables. -/
def Obligations.TablesAreImmutable : Prop :=
  (∀ (i : Instr) (s t : State), exec i s = .next t → t.cfg = s.cfg) ∧
  ∀ s t : State, step s = .next t → t.cfg ≠ s.cfg →
    ∃ m rest, s.moves = m :: rest ∧ ((∃ c, m = .reset (some c) ∧ t.cfg = c) ∨ ∃ c t0, m = .powerOn c t0 ∧ t.cfg = c)

/-- With no move scheduled the counter steps while the generator is IDLE; while it is busy the counter steps as often as
`turns` says and then the generator does. The number of turns is the model's free value (60_exceptions.md R161, log 6), and
the statement holds for every number. -/
def Obligations.UnscheduledStepIsAnAgentsStep : Prop :=
  ∀ s : State, s.Inv → s.moves = [] →
    (s.busy = false → step s = .next { s with tick := s.tick + 1 }) ∧
    (∀ k, s.busy = true → s.turns = k + 1 → step s = .next { s with turns := k, tick := s.tick + 1 }) ∧
    (s.busy = true → s.turns = 0 → ∃ e n, readEnc s.cfg s.pg.pid.toNat = some e ∧
      step s = .next
        { s with pg := s.pg.step e s.cfg.trailingGap, turns := n, draws := s.draws + 1 })

/-- 60_exceptions.md, fairness: a run with no move scheduled never stops, the counter steps infinitely often in it, a busy
generator always steps again, and after some step the generator is IDLE for good. That such a run is fair by construction is
the model's choice (log 6). -/
def Obligations.UnscheduledRunsAreFair : Prop :=
  ∀ s : State, s.Inv → s.moves = [] → ∃ r : Nat → State, r 0 = s ∧ (∀ n, step (r n) = .next (r (n + 1))) ∧
    (∀ n, ∃ m, n ≤ m ∧ (r (m + 1)).tick = (r m).tick + 1) ∧
    (∀ n, (r n).busy = true → ∃ m e, n ≤ m ∧ (r m).busy = true ∧ readEnc s.cfg (r m).pg.pid.toNat = some e ∧
      (r (m + 1)).pg = (r m).pg.step e s.cfg.trailingGap) ∧
    ∃ n, ∀ m, n ≤ m → (r m).busy = false

/-- 60_exceptions.md R162 with `T` of 42_pulse.md R133: in every weakly fair infinite run, a transmission that TX or SEND
starts, and that no reset interrupts, ends, after exactly `T` generator steps. -/
def Obligations.TransmissionsEndUnderFairness : Prop :=
  ∀ (r : Nat → State) (ms : Nat → Move), RunOf r ms → WeaklyFair r ms →
    ∀ (n : Nat) (cmd arg : Word) (pid : BitVec 8) (rep : BitVec 16) (value : Word) (e : Encoding),
      ms n = .command cmd arg → (r n).busy = false → readEnc (r n).cfg pid.toNat = some e → rep ≠ 0 →
      (decodeAt (r n).cfg cmd arg = some (.tx pid rep value) ∨
        ∃ idx onoff, decodeAt (r n).cfg cmd arg = some (.send idx onoff rep) ∧
          resolve (r n).cfg idx onoff = .found pid value) →
      (∀ k, n < k → (ms k).isReset = false) →
      ∃ m, n < m ∧ (∀ k, n < k → k < m → (r k).busy = true) ∧ (r m).busy = false ∧
        (List.range' (n + 1) (m - (n + 1))).countP (fun k => (ms k).isPulse) =
          totalUnits e (r n).cfg.trailingGap value rep.toNat

/-- 60_exceptions.md R161: the counter's step and the generator's step do not see each other, so either order of the two
leaves the same state. -/
def Obligations.TickAndPulseCommute : Prop :=
  ∀ (s : State) (rest : List Move), s.Inv → ∃ t : State,
    Sys2Proof.core.run 2 { s with moves := .tick :: .pulse :: rest } = .next t ∧
    Sys2Proof.core.run 2 { s with moves := .pulse :: .tick :: rest } = .next t ∧ t.tick = s.tick + 1

/-! ## Reset and the invariant -/

/-- 10_state.md R35: what reset leaves, for every value of the fields the spec leaves open. -/
def Obligations.ResetStateOfTheSpec : Prop :=
  ∀ g : PulseGen, ∀ t0 : Tick, g.phase = .idle →
    let s : State := { State.reset with tick := t0, pg := g }
    State.reset.wv = ⟨0, 0⟩ ∧ State.reset.fault = .noFault ∧ State.reset.pg.phase = .idle ∧
      s.rfOut = .low ∧ s.busy = false ∧ s.due = true ∧ s.faultCode = 0

/-- 70_reset_and_hazards.md R180, R181 and 10_state.md R35: a reset in any state, during a transmission too, writes the
reset values and leaves the tick; a power-on sets the tick to the draw. A configuration loaded with it is in force
afterwards (R182). -/
def Obligations.ResetWritesItsValues : Prop :=
  (∀ (s : State) (rest : List Move) (load : Option Config), admitted s.cfg = true → s.moves = .reset load :: rest →
    admitted (load.getD s.cfg) = true → ∃ t, step s = .next t ∧ t.wv = ⟨0, 0⟩ ∧ t.fault = .noFault ∧
      t.pg.phase = .idle ∧ t.rfOut = .low ∧ t.busy = false ∧ t.due = true ∧ t.tick = s.tick ∧
      t.cfg = load.getD s.cfg ∧ t.moves = rest) ∧
  ∀ (s : State) (rest : List Move) (c : Config) (t0 : Tick), admitted s.cfg = true →
    s.moves = .powerOn c t0 :: rest → admitted c = true → ∃ t, step s = .next t ∧ t.wv = ⟨0, 0⟩ ∧
      t.fault = .noFault ∧ t.pg.phase = .idle ∧ t.rfOut = .low ∧ t.busy = false ∧ t.due = true ∧ t.tick = t0 ∧
      t.cfg = c ∧ t.moves = rest

/-- 20_memory.md R45: W1 to W4 written out (a pattern meets its 32 bits by its type), and that any other configuration is
refused. R45 says "before the first step"; that the refusal falls at every step under such a configuration, and at the reset
or power-on that would load it, is the model's choice (log 10), and so is that the numbers of W1 do not follow `PID_W` and
`IDX_W` (log 21). -/
def Obligations.OnlyAdmittedConfigurationsRun : Prop :=
  (∀ c : Config, admitted c = true ↔
    (c.enc.length ≤ 256 ∧ c.sw.length ≤ 65535) ∧
    (∀ x ∈ c.sw, x.protocolId.toNat < c.enc.length) ∧
    (∀ x ∈ c.sw, ∀ e, c.enc[x.protocolId.toNat]? = some e →
      (32 ≤ e.bitCount ∨ x.off.toNat < 2 ^ e.bitCount) ∧
      (32 ≤ e.bitCount ∨ x.on.toNat < 2 ^ e.bitCount)) ∧
    (∀ x ∈ c.sw, x.protocolId.toNat < 2 ^ c.pidW) ∧
    (∀ e ∈ c.enc, e.bitCount < 2 ^ c.bcW ∧ e.gap < 2 ^ c.durW ∧ e.preambleHigh < 2 ^ c.durW ∧ e.preambleLow < 2 ^ c.durW ∧
      e.sym0.high < 2 ^ c.durW ∧ e.sym0.low < 2 ^ c.durW ∧ e.sym1.high < 2 ^ c.durW ∧ e.sym1.low < 2 ^ c.durW)) ∧
  (∀ s : State, admitted s.cfg = false → step s = .refused .configNotAdmitted) ∧
  ∀ (s : State) (c : Config) (rest : List Move), admitted c = false →
    (s.moves = .reset (some c) :: rest → step s = .refused .configNotAdmitted) ∧
    (∀ t0, s.moves = .powerOn c t0 :: rest → step s = .refused .configNotAdmitted)

/-- The invariant of Safety.lean holds right after reset. -/
def Obligations.ResetMeetsTheInvariant : Prop :=
  State.reset.Inv

/-- Every step keeps the invariant: the configuration passes W1 to W4 (20_memory.md R45), the generator's registers fit
their widths (00_scope.md R5), the latched protocol exists (42_pulse.md R128), and the registers stay in the ranges of
10_state.md R30. -/
def Obligations.EveryStepKeepsTheInvariant : Prop :=
  ∀ s t : State, s.Inv → step s = .next t → t.Inv

/-- No state that meets the invariant stops: each step answers a next state, but for a reset that loads a configuration
which fails W1 to W4 (60_exceptions.md R152 "The block keeps accepting commands after a fault", 20_memory.md R44, R45). -/
def Obligations.NoStepStopsTheBlock : Prop :=
  ∀ s : State, s.Inv →
    (∃ t, step s = .next t) ∨
    (∃ c rest, admitted c = false ∧ (s.moves = .reset (some c) :: rest ∨ ∃ t0, s.moves = .powerOn c t0 :: rest) ∧
      step s = .refused .configNotAdmitted)

/-- 10_state.md R36: "No rule reads them while `s.pg.phase = IDLE`". Two states that differ only in the generator
registers of an idle generator answer alike at every step, and go on differing at most there; with it every output. -/
def Obligations.IdleGeneratorRegistersNeverMatter : Prop :=
  ∀ s t : State, s.Agree t →
    (s.busy = t.busy ∧ s.due = t.due ∧ s.rfOut = t.rfOut ∧ s.faultCode = t.faultCode) ∧
    (∀ s', step s = .next s' → ∃ t', step t = .next t' ∧ s'.Agree t') ∧
    (∀ r, step s = .fault r → step t = .fault r) ∧
    (∀ r, step s = .refused r → step t = .refused r)

/-! ## Deadlines -/

/-- 40_timer.md, the equivalent form (derived there): passed exactly when the forward distance from `start` is at least
the interval's length, and not passed for exactly the `L` ticks from `start` on. -/
def Obligations.DeadlineIsForwardDistance : Prop :=
  ∀ (wv : WaitValue) (cur : Tick),
    hasPassed wv cur = decide ((65536 + wv.endTick.toNat - wv.startTick.toNat) % 65536 ≤
      (65536 + cur.toNat - wv.startTick.toNat) % 65536) ∧
    (hasPassed wv cur = false ↔
      ∃ k < (65536 + wv.endTick.toNat - wv.startTick.toNat) % 65536, cur.toNat = (wv.startTick.toNat + k) % 65536)

/-- 40_timer.md, "ARM then PASSED" and "Aliasing" (derived there): with `e` counter steps between them, PASSED answers 1
exactly when `e` modulo 65536 is at least the armed ticks. -/
def Obligations.ArmThenPassedAfterTicks : Prop :=
  ∀ (s : State) (ticks : BitVec 16) (a b : Word) (e : Nat) (rest : List Move), admitted s.cfg = true →
    ∃ t : State, Sys2Proof.core.run (e + 2)
        { s with moves := .command (0x20000000#32 ||| ticks.setWidth 32) a ::
            (List.replicate e .tick ++ .command 0x30000000#32 b :: rest) } = .next t ∧
      t.resp = some ⟨0, 0, decide (ticks.toNat ≤ e % 65536)⟩ ∧ t.wv = ⟨s.tick, s.tick + ticks⟩ ∧ t.pg = s.pg ∧
      t.moves = rest

/-- 40_timer.md, "ALWAYS is absorbing" (derived there): only an ARM moves the WaitValue away from `(0, 0)`, and there
PASSED and PASSED1 answer 1 at every tick. -/
def Obligations.AlwaysIsAbsorbing : Prop :=
  ∀ s : State, s.wv = ⟨0, 0⟩ →
    (∀ t, step s = .next t → t.wv ≠ ⟨0, 0⟩ →
      ∃ cmd arg rest ticks, s.moves = .command cmd arg :: rest ∧ decode cmd arg = some (.arm ticks)) ∧
    exec .passed s = .next { s with resp := some ⟨0, 0, true⟩ } ∧
    exec .passed1 s = .next { s with resp := some ⟨0, 0, true⟩ }

/-- 70_reset_and_hazards.md (derived there): the first PASSED1 after reset answers 1, whatever the counter did since. -/
def Obligations.FirstPassedOnceAfterResetReports : Prop :=
  ∀ (s : State) (k : Nat) (a : Word) (rest : List Move), admitted s.cfg = true →
    ∃ t : State, Sys2Proof.core.run (k + 2)
        { s with moves := .reset none :: (List.replicate k .tick ++ .command 0x40000000#32 a :: rest) } = .next t ∧
      t.resp = some ⟨0, 0, true⟩ ∧ t.wv = ⟨0, 0⟩ ∧ t.tick.toNat = (s.tick.toNat + k) % 65536 ∧ t.moves = rest

/-- 20_memory.md (side effects, derived there): TICK, PASSED and RESOLVE change no state, and two in a row answer alike. -/
def Obligations.ReadOnlyCommandsAreIdempotent : Prop :=
  ∀ (s : State) (i : Instr), (i = .tick ∨ i = .passed ∨ ∃ idx onoff, i = .resolve idx onoff) →
    ∃ t r, exec i s = .next t ∧ t = { s with resp := some r } ∧ exec i t = .next t

/-! ## Switches -/

/-- 41_registry.md R105: RESOLVE's answer depends on its operands and the Switch table only. -/
def Obligations.ResolveReadsOnlyTheSwitchTable : Prop :=
  ∀ (s t : State) (idx : BitVec 16) (onoff : BitVec 8), s.cfg.sw = t.cfg.sw →
    ∃ a b, exec (.resolve idx onoff) s = .next a ∧ exec (.resolve idx onoff) t = .next b ∧ a.resp = b.resp

/-- 70_reset_and_hazards.md R187: a host that maps over-wide values to 65535 and 255 never aliases a valid switch: the
mapped pair resolves exactly as the unbounded values would. -/
def Obligations.SaturatedOperandsNeverAlias : Prop :=
  (∀ n, (65535 < n → hostIdx n = 65535) ∧ (n ≤ 65535 → (hostIdx n).toNat = n) ∧
    (255 < n → hostOnoff n = 255) ∧ (n ≤ 255 → (hostOnoff n).toNat = n)) ∧
  ∀ (c : Config), admitted c = true → ∀ n m : Nat,
    (∀ x, c.sw[n]? = some x → m = 0 → resolve c (hostIdx n) (hostOnoff m) = .found x.protocolId x.off) ∧
    (∀ x, c.sw[n]? = some x → m = 1 → resolve c (hostIdx n) (hostOnoff m) = .found x.protocolId x.on) ∧
    (c.sw.length ≤ n ∨ 1 < m → resolve c (hostIdx n) (hostOnoff m) = .notFound)

/-! ## The pulse generator -/

/-- 10_state.md R32, R33, R34 with 00_scope.md R10 and the numbers of R30 and 60_exceptions.md R150: the outputs. -/
def Obligations.OutputsOfTheBlock : Prop :=
  ∀ s : State,
    (s.rfOut.bit = 1 ↔ s.pg.phase = .preH ∨ s.pg.phase = .symH) ∧
    (s.rfOut.bit = 0 ↔ s.pg.phase = .idle ∨ s.pg.phase = .preL ∨ s.pg.phase = .symL ∨ s.pg.phase = .gap) ∧
    (s.busy = true ↔ s.pg.phase.code ≠ 0) ∧
    s.due = hasPassed s.wv s.tick ∧
    (s.faultCode = 0 ↔ s.fault = .noFault) ∧ (s.faultCode = 1 ↔ s.fault = .illegalCommand) ∧
    (s.faultCode = 2 ↔ s.fault = .busy) ∧ (s.faultCode = 3 ↔ s.fault = .badProtocolId)

/-- 42_pulse.md R127: the durations, the successors, and the recursion that `adv` is defined by there, for every
position. -/
def Obligations.PositionsFollowTheSpec : Prop :=
  ∀ (e : Encoding) (tg : Bool) (v : Word) (i : Nat) (left : BitVec 16),
    let bitOn : Bool := v.getLsbD i
    let endFrame : Position := if 0 < left.toNat ∨ tg = true then ⟨.gap, 0, left⟩ else ⟨.idle, 0, 0⟩
    dur e v ⟨.preH, i, left⟩ = e.preambleHigh ∧
    dur e v ⟨.preL, i, left⟩ = e.preambleLow ∧
    dur e v ⟨.symH, i, left⟩ = (if bitOn then e.sym1.high else e.sym0.high) ∧
    dur e v ⟨.symL, i, left⟩ = (if bitOn then e.sym1.low else e.sym0.low) ∧
    dur e v ⟨.gap, i, left⟩ = e.gap ∧
    succ e tg ⟨.preH, i, left⟩ = ⟨.preL, 0, left⟩ ∧
    succ e tg ⟨.preL, i, left⟩ = (if 0 < e.bitCount then ⟨.symH, 0, left⟩ else endFrame) ∧
    succ e tg ⟨.symH, i, left⟩ = ⟨.symL, i, left⟩ ∧
    succ e tg ⟨.symL, i, left⟩ =
      (if i + 1 < e.bitCount then ⟨.symH, i + 1, left⟩ else endFrame) ∧
    succ e tg ⟨.gap, i, left⟩ =
      (if 0 < left.toNat then ⟨.preH, 0, BitVec.ofNat 16 (left.toNat - 1)⟩ else ⟨.idle, 0, 0⟩) ∧
    ∀ p : Position, adv e tg v p = if p.phase = .idle ∨ 0 < dur e v p then p else adv e tg v (succ e tg p)

/-- 42_pulse.md R128: `start` latches the inputs and moves to the first position of non-zero duration; the generator stays
IDLE exactly when the waveform has no pulse unit. Only TX and SEND call it, with `rep` at least 1 and an existing
protocol: no other step writes the registers of an idle generator, but for a reset. -/
def Obligations.StartLatchesAndSkipsEmptySegments : Prop :=
  (∀ (g : PulseGen) (e : Encoding) (tg : Bool) (pid : BitVec 8) (v : Word) (rep : BitVec 16), rep ≠ 0 →
    let p := adv e tg v ⟨.preH, 0, BitVec.ofNat 16 (rep.toNat - 1)⟩
    let g' := g.start e tg pid v rep
    g'.pid = pid ∧ g'.val = v ∧ g'.phase = p.phase ∧ g'.bit = p.bit ∧ g'.left = p.left ∧
      (p.phase ≠ .idle → g'.rem = dur e v p) ∧ (p.phase = .idle → g'.rem = g.rem) ∧
      (g'.phase = .idle ↔ units (waveform e tg v rep.toNat) = [])) ∧
  ∀ s t : State, s.pg.phase = .idle → step s = .next t → t.pg ≠ s.pg →
    (∀ m rest, s.moves = m :: rest → m.isReset = false) →
    ∃ cmd arg rest pid v rep e, s.moves = .command cmd arg :: rest ∧
      (decodeAt s.cfg cmd arg = some (.tx pid rep v) ∨
        ∃ idx onoff, decodeAt s.cfg cmd arg = some (.send idx onoff rep) ∧ resolve s.cfg idx onoff = .found pid v) ∧
      rep ≠ 0 ∧ s.cfg.enc[pid.toNat]? = some e ∧ t.pg = s.pg.start e s.cfg.trailingGap pid v rep

/-- 42_pulse.md R129: the generator step, while busy, and that only the generator changes. (A pulse unit that ends while the
generator is IDLE: `PulseWhileIdleChangesNothing`.) -/
def Obligations.GeneratorStepEndsOnePulseUnit : Prop :=
  ∀ (s : State) (e : Encoding) (rest : List Move), admitted s.cfg = true → s.moves = .pulse :: rest →
    s.pg.phase ≠ .idle → s.cfg.enc[s.pg.pid.toNat]? = some e →
      let p := adv e s.cfg.trailingGap s.pg.val (succ e s.cfg.trailingGap ⟨s.pg.phase, s.pg.bit, s.pg.left⟩)
      (1 < s.pg.rem → step s = .next { s with moves := rest, pg := { s.pg with rem := s.pg.rem - 1 } }) ∧
      (s.pg.rem ≤ 1 → step s = .next
        { s with
          moves := rest
          pg := { s.pg with
            phase := p.phase, bit := p.bit, left := p.left
            rem := if p.phase = .idle then s.pg.rem else dur e s.pg.val p } })

/-- The end of a pulse unit while the generator is IDLE changes nothing: the generator has no step then (42_pulse.md R129). That
such a move is allowed at all is the model's choice (log 7). -/
def Obligations.PulseWhileIdleChangesNothing : Prop :=
  ∀ (s : State) (rest : List Move), admitted s.cfg = true → s.moves = .pulse :: rest → s.busy = false →
    step s = .next { s with moves := rest }

/-- 42_pulse.md R134: while a transmission runs, every command leaves the generator and the line as they are, and any step
that is not a reset leaves it unchanged or makes one generator step. -/
def Obligations.NoCommandCancelsATransmission : Prop :=
  (∀ (s : State) (cmd arg : Word) (rest : List Move), admitted s.cfg = true → s.busy = true →
    s.moves = .command cmd arg :: rest →
    ∃ t, step s = .next t ∧ t.pg = s.pg ∧ t.rfOut = s.rfOut ∧ t.busy = true ∧ t.cfg = s.cfg ∧ t.tick = s.tick ∧
      t.moves = rest) ∧
  ∀ s t : State, s.busy = true → step s = .next t → (∀ m rest, s.moves = m :: rest → m.isReset = false) →
    t.pg = s.pg ∨ ∃ e, readEnc s.cfg s.pg.pid.toNat = some e ∧ t.pg = s.pg.step e s.cfg.trailingGap

/-- 42_pulse.md, "The machine emits exactly the function's waveform" (derived there), under EVERY interleaving without a
reset: after `k` generator steps, fewer than the waveform's pulse units, the generator is busy and the line is at the
waveform's entry `k`; the step that makes it as many ends the transmission; an empty waveform ends in the command's step. -/
def Obligations.TransmissionEmitsItsWaveform : Prop :=
  ∀ (s : State) (e : Encoding) (pid : BitVec 8) (rep : BitVec 16) (value : BitVec 32), admitted s.cfg = true →
    s.pg.phase = .idle → s.cfg.enc[pid.toNat]? = some e → rep ≠ 0 →
    ∃ t, exec (.tx pid rep value) s = .next t ∧
      let wire := units (waveform e s.cfg.trailingGap value rep.toNat)
      (wire = [] → t.busy = false) ∧
      ∀ ms rest : List Move, (∀ m ∈ ms, m.isReset = false) → ms.countP (·.isPulse) < wire.length →
        (∃ u : State, Sys2Proof.core.run ms.length { t with moves := ms ++ rest } = .next u ∧ u.busy = true ∧
          wire[ms.countP (·.isPulse)]? = some u.rfOut ∧ u.moves = rest) ∧
        (ms.countP (·.isPulse) + 1 = wire.length →
          ∃ u : State, Sys2Proof.core.run (ms.length + 1) { t with moves := ms ++ .pulse :: rest } = .next u ∧
            u.busy = false ∧ u.rfOut = .low ∧ u.moves = rest)

/-- 42_pulse.md, "Duration" (derived there): the number of pulse units of a transmission, in closed form. -/
def Obligations.DurationInClosedForm : Prop :=
  ∀ (e : Encoding) (tg : Bool) (v : Word) (rep : Nat),
    let bitUnits := fun i : Nat =>
      if v.getLsbD i then e.sym1.high + e.sym1.low else e.sym0.high + e.sym0.low
    let frameLength := e.preambleHigh + e.preambleLow + ((List.range e.bitCount).map bitUnits).sum
    (units (waveform e tg v rep)).length =
      if rep = 0 then 0 else rep * frameLength + (rep - 1) * e.gap + (if tg then e.gap else 0)

/-- 42_pulse.md R121 to R125 with R123's order: segment by segment, what a frame is, and that every repeat is the same
frame with one gap between. -/
def Obligations.WaveformIsRepeatedFrames : Prop :=
  ∀ (e : Encoding) (tg : Bool) (v : Word) (rep : Nat),
    let bitSegments := fun i : Nat =>
      if v.getLsbD i then [Segment.mk .high e.sym1.high, Segment.mk .low e.sym1.low]
      else [Segment.mk .high e.sym0.high, Segment.mk .low e.sym0.low]
    frame e v =
      (if e.preambleHigh = 0 then [] else [Segment.mk .high e.preambleHigh]) ++
      (if e.preambleLow = 0 then [] else [Segment.mk .low e.preambleLow]) ++
      (List.range e.bitCount).flatMap bitSegments ∧
    waveform e tg v 0 = [] ∧
    waveform e tg v (rep + 1) =
      (List.range rep).flatMap (fun _ => frame e v ++ [Segment.mk .low e.gap]) ++ frame e v ++
        (if tg then [Segment.mk .low e.gap] else [])

/-- 42_pulse.md, "Round trip" (derived there): the frame's segments determine the low `min(n, 32)` bits, so a frame is
injective on `n`-bit values; and the wire determines them too when all symbol durations are positive and the two high
durations differ, however long the idle level that follows is. -/
def Obligations.FrameDeterminesThePattern : Prop :=
  ∀ (e : Encoding) (v w : Word), 1 ≤ e.bitCount →
    (e.sym0 ≠ e.sym1 → frame e v = frame e w →
      (∀ i < min e.bitCount 32, v.getLsbD i = w.getLsbD i) ∧
      (v.toNat < 2 ^ e.bitCount → w.toNat < 2 ^ e.bitCount → v = w)) ∧
    (0 < e.sym0.high → 0 < e.sym0.low → 0 < e.sym1.high → 0 < e.sym1.low → e.sym0.high ≠ e.sym1.high →
      ∀ a b : Nat, units (frame e v) ++ List.replicate a .low = units (frame e w) ++ List.replicate b .low →
        ∀ i < min e.bitCount 32, v.getLsbD i = w.getLsbD i)

/-- 95_test_vectors.md T-PG-1, the source's end-to-end scenario with the order 90_conflicts.md C1 settles. -/
def Obligations.WorkedExampleWaveform : Prop :=
  let p : Encoding := ⟨5, 4, 0, 0, ⟨1, 2⟩, ⟨3, 4⟩⟩
  let f : List Segment := [⟨.high, 1⟩, ⟨.low, 2⟩, ⟨.high, 3⟩, ⟨.low, 4⟩, ⟨.high, 1⟩, ⟨.low, 2⟩, ⟨.high, 3⟩, ⟨.low, 4⟩]
  waveform p false 0xA 2 = f ++ [⟨.low, 5⟩] ++ f ∧ totalUnits p false 0xA 2 = 45

/-- 30_encoding.md R70: `WAITIDLE` is exactly the generator steps until `busy` reads 0, and `WAITDUE` exactly the counter
steps until `due` reads 1. That no other agent steps in between is the model's choice (log 16). -/
def Obligations.WaitingLinesWaitExactly : Prop :=
  ∀ (s : State) (rest : List Move), s.Inv →
    (∃ (k : Nat) (t : State), lineMoves s .waitIdle = some (List.replicate k .pulse) ∧
      Sys2Proof.core.run k { s with moves := List.replicate k .pulse ++ rest } = .next t ∧ t.busy = false ∧
      ∀ j < k, ∃ u : State, Sys2Proof.core.run j { s with moves := List.replicate k .pulse ++ rest } = .next u ∧
        u.busy = true) ∧
    (∃ (k : Nat) (t : State), lineMoves s .waitDue = some (List.replicate k .tick) ∧
      Sys2Proof.core.run k { s with moves := List.replicate k .tick ++ rest } = .next t ∧ t.due = true ∧
      ∀ j < k, ∃ u : State, Sys2Proof.core.run j { s with moves := List.replicate k .tick ++ rest } = .next u ∧
        u.due = false)
end

