-- ==== Sys2Proof/Laws/PerInstr.lean ====
section
/-! SUPPORT. Facts about each command as syntax, one lemma per constructor: the argument word an assembler writes has no
bit set that the command does not read (spec 30_encoding.md R63, R69). -/

namespace Sys2Proof.Laws.ArgWordUsed

/-- The command's argument word lies within the bits the command reads. -/
def Statement (i : Instr) : Prop := encodeArg i &&& argMask i = encodeArg i

theorem tick : Statement .tick := rfl
theorem arm (ticks : BitVec 16) : Statement (.arm ticks) := by simp [Statement, encodeArg, argMask]
theorem passed : Statement .passed := rfl
theorem passed1 : Statement .passed1 := rfl
theorem resolve (idx : BitVec 16) (onoff : BitVec 8) : Statement (.resolve idx onoff) := by
  simp [Statement, encodeArg, argMask]
theorem tx (pid : BitVec 8) (rep : BitVec 16) (value : BitVec 32) : Statement (.tx pid rep value) := by
  have h : (0xFFFFFFFF#32) = BitVec.allOnes 32 := by decide
  simp only [Statement, encodeArg, argMask, h, BitVec.and_allOnes]
theorem send (idx : BitVec 16) (onoff : BitVec 8) (rep : BitVec 16) : Statement (.send idx onoff rep) := by
  simp only [Statement, encodeArg, argMask]
  apply BitVec.eq_of_toNat_eq
  have h : (0x0000FFFF : Nat) = 2 ^ 16 - 1 := by decide
  simp only [BitVec.toNat_and, BitVec.toNat_setWidth, BitVec.toNat_ofNat, Nat.reducePow, Nat.reduceMod]
  rw [h, Nat.and_two_pow_sub_one_eq_mod]
  omega

end Sys2Proof.Laws.ArgWordUsed
end

