-- ==== Sys2Proof/Laws/State.lean ====
section
/-! SUPPORT. One lemma per field per update of the block's state, and what a step of the block leaves of the rest of the
state, so that no proof unfolds a record update. -/

namespace Sys2Proof.Machine

variable (s : Block)

/-! ### respond -/

@[simp] theorem Block.respond_tick (r : Response) : (s.respond r).tick = s.tick := rfl
@[simp] theorem Block.respond_wv (r : Response) : (s.respond r).wv = s.wv := rfl
@[simp] theorem Block.respond_fault (r : Response) : (s.respond r).fault = s.fault := rfl
@[simp] theorem Block.respond_pg (r : Response) : (s.respond r).pg = s.pg := rfl
@[simp] theorem Block.respond_resp (r : Response) : (s.respond r).resp = some r := rfl
@[simp] theorem Block.respond_draws (r : Response) : (s.respond r).draws = s.draws := rfl

/-! ### setWv -/

@[simp] theorem Block.setWv_tick (w : WaitValue) : (s.setWv w).tick = s.tick := rfl
@[simp] theorem Block.setWv_wv (w : WaitValue) : (s.setWv w).wv = w := rfl
@[simp] theorem Block.setWv_fault (w : WaitValue) : (s.setWv w).fault = s.fault := rfl
@[simp] theorem Block.setWv_pg (w : WaitValue) : (s.setWv w).pg = s.pg := rfl
@[simp] theorem Block.setWv_resp (w : WaitValue) : (s.setWv w).resp = s.resp := rfl
@[simp] theorem Block.setWv_draws (w : WaitValue) : (s.setWv w).draws = s.draws := rfl

/-! ### setPg -/

@[simp] theorem Block.setPg_tick (g : PulseGen) : (s.setPg g).tick = s.tick := rfl
@[simp] theorem Block.setPg_wv (g : PulseGen) : (s.setPg g).wv = s.wv := rfl
@[simp] theorem Block.setPg_fault (g : PulseGen) : (s.setPg g).fault = s.fault := rfl
@[simp] theorem Block.setPg_pg (g : PulseGen) : (s.setPg g).pg = g := rfl
@[simp] theorem Block.setPg_resp (g : PulseGen) : (s.setPg g).resp = s.resp := rfl
@[simp] theorem Block.setPg_draws (g : PulseGen) : (s.setPg g).draws = s.draws := rfl

/-! ### raiseFault -/

@[simp] theorem Block.raiseFault_tick (k : FaultCode) : (s.raiseFault k).tick = s.tick := rfl
@[simp] theorem Block.raiseFault_wv (k : FaultCode) : (s.raiseFault k).wv = s.wv := rfl
@[simp] theorem Block.raiseFault_fault (k : FaultCode) : (s.raiseFault k).fault = recordCode s.fault k := rfl
@[simp] theorem Block.raiseFault_pg (k : FaultCode) : (s.raiseFault k).pg = s.pg := rfl
@[simp] theorem Block.raiseFault_resp (k : FaultCode) : (s.raiseFault k).resp = some .zero := rfl
@[simp] theorem Block.raiseFault_draws (k : FaultCode) : (s.raiseFault k).draws = s.draws := rfl

/-! ### resetTo -/

@[simp] theorem Block.resetTo_tick (c : Config) : (s.resetTo c).tick = s.tick := rfl
@[simp] theorem Block.resetTo_wv (c : Config) : (s.resetTo c).wv = .always := rfl
@[simp] theorem Block.resetTo_fault (c : Config) : (s.resetTo c).fault = .noFault := rfl
@[simp] theorem Block.resetTo_pg (c : Config) : (s.resetTo c).pg = .afterReset c s.draws := rfl
@[simp] theorem Block.resetTo_resp (c : Config) : (s.resetTo c).resp = none := rfl
@[simp] theorem Block.resetTo_draws (c : Config) : (s.resetTo c).draws = s.draws + 1 := rfl

/-! ### powerOnTo -/

@[simp] theorem Block.powerOnTo_tick (c : Config) (t : Tick) : (s.powerOnTo c t).tick = t := rfl
@[simp] theorem Block.powerOnTo_wv (c : Config) (t : Tick) : (s.powerOnTo c t).wv = .always := rfl
@[simp] theorem Block.powerOnTo_fault (c : Config) (t : Tick) : (s.powerOnTo c t).fault = .noFault := rfl
@[simp] theorem Block.powerOnTo_pg (c : Config) (t : Tick) : (s.powerOnTo c t).pg = .afterReset c s.draws := rfl
@[simp] theorem Block.powerOnTo_resp (c : Config) (t : Tick) : (s.powerOnTo c t).resp = none := rfl
@[simp] theorem Block.powerOnTo_draws (c : Config) (t : Tick) : (s.powerOnTo c t).draws = s.draws + 1 := rfl

/-! ### advanceTick -/

@[simp] theorem Block.advanceTick_tick : (s.advanceTick).tick = s.tick + 1 := rfl
@[simp] theorem Block.advanceTick_wv : (s.advanceTick).wv = s.wv := rfl
@[simp] theorem Block.advanceTick_fault : (s.advanceTick).fault = s.fault := rfl
@[simp] theorem Block.advanceTick_pg : (s.advanceTick).pg = s.pg := rfl
@[simp] theorem Block.advanceTick_resp : (s.advanceTick).resp = s.resp := rfl
@[simp] theorem Block.advanceTick_draws : (s.advanceTick).draws = s.draws := rfl

/-! ### start -/

@[simp] theorem Block.start_tick (e : Encoding) (tg : Bool) (pid : BitVec 8) (v : Word) (rep : BitVec 16) : (s.start e tg pid v rep).tick = s.tick := rfl
@[simp] theorem Block.start_wv (e : Encoding) (tg : Bool) (pid : BitVec 8) (v : Word) (rep : BitVec 16) : (s.start e tg pid v rep).wv = s.wv := rfl
@[simp] theorem Block.start_fault (e : Encoding) (tg : Bool) (pid : BitVec 8) (v : Word) (rep : BitVec 16) : (s.start e tg pid v rep).fault = s.fault := rfl
@[simp] theorem Block.start_pg (e : Encoding) (tg : Bool) (pid : BitVec 8) (v : Word) (rep : BitVec 16) : (s.start e tg pid v rep).pg = s.pg.start e tg pid v rep := rfl
@[simp] theorem Block.start_resp (e : Encoding) (tg : Bool) (pid : BitVec 8) (v : Word) (rep : BitVec 16) : (s.start e tg pid v rep).resp = s.resp := rfl
@[simp] theorem Block.start_draws (e : Encoding) (tg : Bool) (pid : BitVec 8) (v : Word) (rep : BitVec 16) : (s.start e tg pid v rep).draws = s.draws := rfl

/-! ### A step of the block under the configuration in force -/

theorem State.onBlock_of_next {s : State} {f : Config → Block → Host.Outcome Block Fault Refusal} {b : Block}
    (h : f s.cfg s.toBlock = .next b) : s.onBlock f = .next { s with toBlock := b } := by
  rw [State.onBlock, h]

theorem State.onBlock_of_fault {s : State} {f : Config → Block → Host.Outcome Block Fault Refusal} {r : Fault}
    (h : f s.cfg s.toBlock = .fault r) : s.onBlock f = .fault r := by
  rw [State.onBlock, h]

/-- A step of the block that answers a next state leaves the configuration, the other moves and the turns. -/
theorem State.onBlock_next {s t : State} {f : Config → Block → Host.Outcome Block Fault Refusal}
    (h : s.onBlock f = .next t) :
    ∃ b, f s.cfg s.toBlock = .next b ∧ t = { s with toBlock := b } := by
  unfold State.onBlock at h
  cases hf : f s.cfg s.toBlock with
  | next b => rw [hf] at h; cases h; exact ⟨b, rfl, rfl⟩
  | fault r => rw [hf] at h; cases h
  | refused r => rw [hf] at h; cases h

@[simp] theorem State.drawTurns_cfg (s : State) : s.drawTurns.cfg = s.cfg := rfl
@[simp] theorem State.drawTurns_moves (s : State) : s.drawTurns.moves = s.moves := rfl
@[simp] theorem State.drawTurns_turns (s : State) : s.drawTurns.turns = Config.freeTurns s.draws := rfl
@[simp] theorem State.drawTurns_tick (s : State) : s.drawTurns.tick = s.tick := rfl
@[simp] theorem State.drawTurns_wv (s : State) : s.drawTurns.wv = s.wv := rfl
@[simp] theorem State.drawTurns_fault (s : State) : s.drawTurns.fault = s.fault := rfl
@[simp] theorem State.drawTurns_pg (s : State) : s.drawTurns.pg = s.pg := rfl
@[simp] theorem State.drawTurns_resp (s : State) : s.drawTurns.resp = s.resp := rfl
@[simp] theorem State.drawTurns_draws (s : State) : s.drawTurns.draws = s.draws + 1 := rfl

/-! ### withFetchWord -/

@[simp] theorem State.withFetchWord_toBlock (s : State) (n w : Nat) : (s.withFetchWord n w).toBlock = s.toBlock := rfl
@[simp] theorem State.withFetchWord_cfg (s : State) (n w : Nat) : (s.withFetchWord n w).cfg = s.cfg := rfl
@[simp] theorem State.withFetchWord_turns (s : State) (n w : Nat) : (s.withFetchWord n w).turns = s.turns := rfl
@[simp] theorem State.withFetchWord_moves (s : State) (n w : Nat) :
    (s.withFetchWord n w).moves = .command (tableWords n w).1 (tableWords n w).2 :: s.moves := rfl

/-! ### the generator's registers -/

variable (g : PulseGen) (e : Encoding) (v : Word) (p : Position)

@[simp] theorem PulseGen.position_phase : g.position.phase = g.phase := rfl
@[simp] theorem PulseGen.position_bit : g.position.bit = g.bit := rfl
@[simp] theorem PulseGen.position_left : g.position.left = g.left := rfl
@[simp] theorem PulseGen.afterReset_phase (c : Config) (d : Nat) : (PulseGen.afterReset c d).phase = .idle := rfl
@[simp] theorem PulseGen.moveTo_phase : (g.moveTo e v p).phase = p.phase := rfl
@[simp] theorem PulseGen.moveTo_bit : (g.moveTo e v p).bit = p.bit := rfl
@[simp] theorem PulseGen.moveTo_left : (g.moveTo e v p).left = p.left := rfl
@[simp] theorem PulseGen.moveTo_pid : (g.moveTo e v p).pid = g.pid := rfl
@[simp] theorem PulseGen.moveTo_val : (g.moveTo e v p).val = g.val := rfl
@[simp] theorem PulseGen.moveTo_position : (g.moveTo e v p).position = p := rfl

theorem PulseGen.moveTo_rem_of_busy (h : p.phase ≠ .idle) : (g.moveTo e v p).rem = dur e v p := by
  simp [PulseGen.moveTo, h]

theorem PulseGen.moveTo_rem_of_idle (h : p.phase = .idle) : (g.moveTo e v p).rem = g.rem := by
  simp [PulseGen.moveTo, h]

@[simp] theorem Block.busy_eq_true : s.busy = true ↔ s.pg.phase ≠ .idle := by
  simp [Block.busy]

@[simp] theorem Block.busy_eq_false : s.busy = false ↔ s.pg.phase = .idle := by
  simp [Block.busy]

end Sys2Proof.Machine
end

