-- ==== Sys2Proof/Laws/PulseGen.lean ====
section
/-! SUPPORT. The generator's positions: each `succ` lowers the bound that is the fuel of `adv`, and the positions `succ`
and `adv` reach stay in range (spec 42_pulse.md R127). -/

namespace Sys2Proof.Machine

variable (e : Encoding) (tg : Bool) (v : Word)

theorem positionsLeft_idle (i : Nat) : positionsLeft e ⟨.idle, i, 0⟩ = 0 := by
  simp [positionsLeft, phaseRank]

/-- The end of a frame is lower than any position within it. -/
theorem positionsLeft_endFrame (left : BitVec 16) :
    positionsLeft e (endFrame tg left) ≤ (2 * e.bitCount + 6) * left.toNat + 1 := by
  unfold endFrame
  split <;> simp [positionsLeft, phaseRank]

/-- "Each `succ` either moves forward within a frame … or passes a gap" (R127). -/
theorem positionsLeft_succ_lt (p : Position) (h : p.phase ≠ .idle) :
    positionsLeft e (succ e tg p) < positionsLeft e p := by
  obtain ⟨ph, i, left⟩ := p
  have hend := positionsLeft_endFrame e tg left
  cases ph with
  | idle => exact absurd rfl h
  | preH => simp [succ, positionsLeft, phaseRank]
  | preL =>
    simp only [succ]
    split
    · simp [positionsLeft, phaseRank]
    · simp only [positionsLeft, phaseRank] at *; omega
  | symH => simp [succ, positionsLeft, phaseRank]
  | symL =>
    simp only [succ]
    split
    · rename_i hn
      simp only [positionsLeft, phaseRank]; omega
    · simp only [positionsLeft, phaseRank] at *; omega
  | gap =>
    simp only [succ]
    split
    · rename_i hl
      have hk : left.toNat = (left - 1).toNat + 1 := by bv_omega
      simp only [positionsLeft, phaseRank, hk, Nat.mul_add]; omega
    · simp [positionsLeft, phaseRank]

/-- A position with no position left is IDLE. -/
theorem phase_idle_of_positionsLeft (p : Position) (h : positionsLeft e p = 0) : p.phase = .idle := by
  obtain ⟨ph, i, left⟩ := p
  cases ph <;> simp [positionsLeft, phaseRank] at h ⊢

/-- In a symbol, the bit index is below `bitCount` (10_state.md R30). -/
def Position.bitInRange (p : Position) : Prop :=
  p.phase = .symH ∨ p.phase = .symL → p.bit < e.bitCount

theorem endFrame_bitInRange (left : BitVec 16) : (endFrame tg left).bitInRange e := by
  unfold endFrame Position.bitInRange
  split <;> simp

/-- `succ` keeps the bit index in range. -/
theorem succ_bitInRange (p : Position) (h : p.bitInRange e) : (succ e tg p).bitInRange e := by
  obtain ⟨ph, i, left⟩ := p
  cases ph with
  | idle => exact h
  | preH => simp [succ, Position.bitInRange]
  | preL =>
    simp only [succ]
    split
    · simpa [Position.bitInRange] using ‹_›
    · exact endFrame_bitInRange e tg left
  | symH => simpa [succ, Position.bitInRange] using h
  | symL =>
    simp only [succ]
    split
    · rename_i hn
      intro _
      exact hn
    · exact endFrame_bitInRange e tg left
  | gap =>
    simp only [succ]
    split <;> simp [Position.bitInRange]

/-- `succ` keeps the bit index within the width that holds the bit count, in every phase (00_scope.md R5 `BC_W`). -/
theorem succ_bit_lt {n : Nat} (hn : e.bitCount < n) (p : Position) (h : p.bit < n) : (succ e tg p).bit < n := by
  obtain ⟨ph, i, left⟩ := p
  have hpos : 0 < n := by omega
  have hend : (endFrame tg left).bit < n := by
    unfold endFrame; split <;> exact hpos
  cases ph with
  | idle => exact h
  | preH => exact hpos
  | preL => simp only [succ]; split <;> assumption
  | symH => exact h
  | symL =>
    simp only [succ]
    split
    · rename_i hi; show i + 1 < n; omega
    · exact hend
  | gap => simp only [succ]; split <;> exact hpos

/-- `succ` never raises the transmissions left. -/
theorem succ_left_le (p : Position) : (succ e tg p).left.toNat ≤ p.left.toNat := by
  obtain ⟨ph, i, left⟩ := p
  have hend : (endFrame tg left).left.toNat ≤ left.toNat := by
    unfold endFrame; split <;> simp
  cases ph with
  | idle => exact Nat.le_refl _
  | preH => exact Nat.le_refl _
  | preL => simp only [succ]; split <;> simp_all
  | symH => exact Nat.le_refl _
  | symL => simp only [succ]; split <;> simp_all
  | gap =>
    simp only [succ]
    split
    · rename_i hl; show (left - 1).toNat ≤ left.toNat; bv_omega
    · simp

/-- What `succ` keeps, `adv` keeps. -/
theorem adv_induct {P : Position → Prop} (hs : ∀ q, P q → P (succ e tg q)) (p : Position) (hp : P p) :
    P (adv e tg v p) := by
  unfold adv
  generalize positionsLeft e p = k
  induction k generalizing p with
  | zero => exact hp
  | succ k ih =>
    unfold advWithin
    split
    · exact hp
    · exact ih _ (hs p hp)

/-- `adv` stops only in IDLE or at a position of positive duration: its bound suffices. -/
theorem adv_stops (p : Position) : (adv e tg v p).phase = .idle ∨ 0 < dur e v (adv e tg v p) := by
  have key : ∀ k q, positionsLeft e q ≤ k →
      (advWithin e tg v k q).phase = .idle ∨ 0 < dur e v (advWithin e tg v k q) := by
    intro k
    induction k with
    | zero => intro q hq; exact .inl (phase_idle_of_positionsLeft e q (by omega))
    | succ k ih =>
      intro q hq
      unfold advWithin
      split
      · assumption
      · rename_i hcond
        exact ih _ (by have := positionsLeft_succ_lt e tg q (fun h => hcond (.inl h)); omega)
  exact key _ p (Nat.le_refl _)

/-- Each duration of an entry that passes W4 fits `DUR_W` bits (20_memory.md R45). -/
theorem dur_lt_of_fits {c : Config} (h : encodingFits c e = true) (p : Position) : dur e v p < 2 ^ c.durW := by
  simp only [encodingFits, List.all_cons, List.all_nil, Bool.and_eq_true, decide_eq_true_eq] at h
  obtain ⟨⟨h1, h2, h3, h4, h5, h6, h7, -⟩, -⟩ := h
  have hpos : 0 < 2 ^ c.durW := Nat.two_pow_pos c.durW
  unfold dur symbolTiming
  cases p.phase with
  | idle => exact hpos
  | preH => exact h2
  | preL => exact h3
  | symH => dsimp only; split <;> assumption
  | symL => dsimp only; split <;> assumption
  | gap => exact h1

/-- The bit count of an entry that passes W4 fits `BC_W` bits. -/
theorem bitCount_lt_of_fits {c : Config} (h : encodingFits c e = true) : e.bitCount < 2 ^ c.bcW := by
  simp only [encodingFits, Bool.and_eq_true, decide_eq_true_eq] at h
  exact h.2

end Sys2Proof.Machine
end

