-- ==== Sys2Proof/Laws/Tables.lean ====
section
/-! SUPPORT. What `lookup`, `resolve` and the admission checks can answer. -/

namespace Sys2Proof.Machine

/-- `lookup` is the table's read: out of range both answer nothing. -/
theorem lookup_eq_readEnc (c : Config) (pid : BitVec 8) : lookup c pid = readEnc c pid.toNat := by
  unfold lookup readEnc
  by_cases h : pid.toNat < nProto c
  · rw [if_pos h]
  · rw [if_neg h, List.getElem?_eq_none (Nat.le_of_not_lt h)]

/-- Everything `resolve` can find: an existing switch, an `onoff` of 0 or 1, and that switch's id and pattern. -/
theorem resolve_eq_found {c : Config} {idx : BitVec 16} {onoff : BitVec 8} {pid : BitVec 8} {v : Word}
    (h : resolve c idx onoff = .found pid v) :
    ∃ x, c.sw[idx.toNat]? = some x ∧ onoff.toNat ≤ 1 ∧ pid = x.protocolId ∧ v = switchCommand x onoff := by
  unfold resolve readSw nSwitch at h
  split at h
  · cases h
  · rename_i hr
    split at h
    · rename_i x hx
      cases h
      exact ⟨x, hx, by omega, rfl, rfl⟩
    · cases h

/-- `resolve` of a switch of the table and a legal `onoff`. -/
theorem resolve_of_switch {c : Config} {idx : BitVec 16} {onoff : BitVec 8} {x : Switch}
    (hx : c.sw[idx.toNat]? = some x) (ho : onoff.toNat ≤ 1) :
    resolve c idx onoff = .found x.protocolId (switchCommand x onoff) := by
  have hlt : idx.toNat < c.sw.length := (List.getElem?_eq_some_iff.mp hx).1
  unfold resolve readSw nSwitch
  rw [if_neg (by omega), hx]

/-- `resolve` outside the table or with an illegal `onoff`. -/
theorem resolve_of_bad {c : Config} {idx : BitVec 16} {onoff : BitVec 8}
    (h : c.sw.length ≤ idx.toNat ∨ 1 < onoff.toNat) : resolve c idx onoff = .notFound := by
  unfold resolve nSwitch
  rw [if_pos h]

/-- W2 of an admitted configuration: the entry of ENC a switch names exists. -/
theorem readEnc_of_switch {c : Config} (hc : admitted c = true) {i : Nat} {x : Switch} (hx : c.sw[i]? = some x) :
    ∃ e, readEnc c x.protocolId.toNat = some e := by
  have hw2 : checkW2 c = true := by
    simp only [admitted, Bool.and_eq_true] at hc
    exact hc.2.1
  have hmem : x ∈ c.sw := List.mem_of_getElem? hx
  have hlt : x.protocolId.toNat < c.enc.length := of_decide_eq_true (List.all_eq_true.mp hw2 x hmem)
  exact ⟨c.enc[x.protocolId.toNat], by simp [readEnc, hlt]⟩

/-- W4 of an admitted configuration, for one entry. -/
theorem encodingFits_of_readEnc {c : Config} (hc : admitted c = true) {i : Nat} {e : Encoding}
    (he : readEnc c i = some e) : encodingFits c e = true := by
  have hw4 : checkW4 c = true := by
    simp only [admitted, Bool.and_eq_true] at hc
    exact hc.2.2.2
  simp only [checkW4, Bool.and_eq_true] at hw4
  exact List.all_eq_true.mp hw4.1 e (List.mem_of_getElem? he)

/-- W4 of an admitted configuration, for the protocol id of one switch. -/
theorem protocolId_lt {c : Config} (hc : admitted c = true) {i : Nat} {x : Switch} (hx : c.sw[i]? = some x) :
    x.protocolId.toNat < 2 ^ c.pidW := by
  have hw4 : checkW4 c = true := by
    simp only [admitted, Bool.and_eq_true] at hc
    exact hc.2.2.2
  simp only [checkW4, Bool.and_eq_true] at hw4
  exact of_decide_eq_true (List.all_eq_true.mp hw4.2 x (List.mem_of_getElem? hx))

end Sys2Proof.Machine
end

