-- ==== Sys2Proof/Laws/Step.lean ====
section
/-! SUPPORT. What a step can do, said once: the shape of `step`, of a command and of the generator's step. -/

namespace Sys2Proof.Machine

theorem step_of_moves {s : State} {m : Move} {rest : List Move} (hc : admitted s.cfg = true)
    (hm : s.moves = m :: rest) : step s = moveStep m { s with moves := rest } := by
  simp [step, hc, hm]

/-- The same for a state written with its list of moves. -/
theorem step_cons {s : State} (hc : admitted s.cfg = true) (m : Move) (rest : List Move) :
    step { s with moves := m :: rest } = moveStep m { s with moves := rest } :=
  step_of_moves (s := { s with moves := m :: rest }) hc rfl

theorem step_of_no_moves {s : State} (hc : admitted s.cfg = true) (hm : s.moves = []) :
    step s = unscheduledStep s := by
  simp [step, hc, hm]

theorem step_of_not_admitted {s : State} (hc : admitted s.cfg = false) : step s = .refused .configNotAdmitted := by
  simp [step, hc]

/-- A step that answers a next state ran an admitted configuration: it made the oldest move, or an agent's step when
there was none. -/
theorem step_next {s t : State} (h : step s = .next t) :
    admitted s.cfg = true ∧
      ((s.moves = [] ∧ unscheduledStep s = .next t) ∨
        ∃ m rest, s.moves = m :: rest ∧ moveStep m { s with moves := rest } = .next t) := by
  by_cases hc : admitted s.cfg = true
  · refine ⟨hc, ?_⟩
    cases hm : s.moves with
    | nil => exact .inl ⟨rfl, by rw [← step_of_no_moves hc hm, h]⟩
    | cons m rest => exact .inr ⟨m, rest, rfl, by rw [← step_of_moves hc hm, h]⟩
  · rw [step_of_not_admitted (by simpa using hc)] at h
    cases h

/-! ### Runs of several steps -/

@[simp] theorem run_zero (s : State) : Sys2Proof.core.run 0 s = .next s := rfl

/-- A run of a machine whose first step answers a next state. -/
theorem machineRun_succ (M : Host.Core) {s t : M.State} (h : M.step s = .next t) (k : Nat) :
    M.run (k + 1) s = M.run k t := by
  simp only [Host.Core.run, h]

/-- A run of `j + k` steps is a run of `j` and then of `k`. -/
theorem machineRun_add (M : Host.Core) {s t : M.State} (j k : Nat) (h : M.run j s = .next t) :
    M.run (j + k) s = M.run k t := by
  induction j generalizing s with
  | zero =>
    cases h
    rw [Nat.zero_add]
  | succ j ih =>
    rw [Nat.succ_add]
    simp only [Host.Core.run] at h ⊢
    cases hs : M.step s with
    | next u => rw [hs] at h; exact ih h
    | fault r => rw [hs] at h; cases h
    | refused r => rw [hs] at h; cases h

theorem run_succ_of_next {s t : State} (h : step s = .next t) (k : Nat) :
    Sys2Proof.core.run (k + 1) s = Sys2Proof.core.run k t :=
  machineRun_succ Sys2Proof.core h k

theorem run_add_of_next {s t : State} (j k : Nat) (h : Sys2Proof.core.run j s = .next t) :
    Sys2Proof.core.run (j + k) s = Sys2Proof.core.run k t :=
  machineRun_add Sys2Proof.core j k h

/-! ### The commands and the agents -/

/-- Everything TX can do. -/
theorem execTx_cases (pid : BitVec 8) (rep : BitVec 16) (v : BitVec 32) (s : State) :
    (s.pg.phase ≠ .idle ∧ execTx pid rep v s = .next { s with toBlock := s.toBlock.raiseFault .busy }) ∨
    (s.pg.phase = .idle ∧ readEnc s.cfg pid.toNat = none ∧
      execTx pid rep v s = .next { s with toBlock := s.toBlock.raiseFault .badProtocolId }) ∨
    (∃ e, s.pg.phase = .idle ∧ readEnc s.cfg pid.toNat = some e ∧ rep.toNat = 0 ∧
      execTx pid rep v s = .next { s with toBlock := s.toBlock.respond .zero }) ∨
    (∃ e, s.pg.phase = .idle ∧ readEnc s.cfg pid.toNat = some e ∧ 0 < rep.toNat ∧
      execTx pid rep v s =
        .next { s with toBlock := (s.toBlock.start e s.cfg.trailingGap pid v rep).respond .zero }) := by
  unfold execTx State.onBlock blockTx
  rw [lookup_eq_readEnc]
  by_cases hp : s.pg.phase = .idle
  · rw [if_neg (by simpa using hp)]
    cases he : readEnc s.cfg pid.toNat with
    | none => exact .inr (.inl ⟨hp, rfl, rfl⟩)
    | some e =>
      by_cases hr : 0 < rep.toNat
      · exact .inr (.inr (.inr ⟨e, hp, rfl, hr, by simp [hr]⟩))
      · exact .inr (.inr (.inl ⟨e, hp, rfl, by omega, by simp [hr]⟩))
  · exact .inl ⟨hp, by rw [if_pos hp]⟩

/-- Everything SEND can do. -/
theorem execSend_cases (idx : BitVec 16) (onoff : BitVec 8) (rep : BitVec 16) (s : State) :
    (s.pg.phase ≠ .idle ∧ execSend idx onoff rep s = .next { s with toBlock := s.toBlock.raiseFault .busy }) ∨
    (s.pg.phase = .idle ∧ (resolve s.cfg idx onoff = .notFound ∨ rep.toNat = 0) ∧
      execSend idx onoff rep s = .next { s with toBlock := s.toBlock.respond .zero }) ∨
    (∃ pid v e, s.pg.phase = .idle ∧ resolve s.cfg idx onoff = .found pid v ∧ 0 < rep.toNat ∧
      readEnc s.cfg pid.toNat = some e ∧
      execSend idx onoff rep s =
        .next { s with toBlock := (s.toBlock.start e s.cfg.trailingGap pid v rep).respond .zero }) ∨
    (∃ pid v, s.pg.phase = .idle ∧ resolve s.cfg idx onoff = .found pid v ∧ 0 < rep.toNat ∧
      readEnc s.cfg pid.toNat = none ∧ execSend idx onoff rep s = .fault .encIndexOutOfRange) := by
  unfold execSend State.onBlock blockSend
  by_cases hp : s.pg.phase = .idle
  · rw [if_neg (by simpa using hp)]
    cases hr : resolve s.cfg idx onoff with
    | notFound => exact .inr (.inl ⟨hp, .inl rfl, rfl⟩)
    | found pid v =>
      by_cases h0 : rep.toNat = 0
      · exact .inr (.inl ⟨hp, .inr h0, by simp [h0]⟩)
      · cases he : readEnc s.cfg pid.toNat with
        | none => exact .inr (.inr (.inr ⟨pid, v, hp, rfl, by omega, he, by simp [h0, he]⟩))
        | some e => exact .inr (.inr (.inl ⟨pid, v, e, hp, rfl, by omega, he, by simp [h0, he]⟩))
  · exact .inl ⟨hp, by rw [if_pos hp]⟩

/-- In an admitted configuration SEND never reads outside ENC (20_memory.md R45 W2). -/
theorem execSend_never_faults {s : State} (hc : admitted s.cfg = true) {idx : BitVec 16} {onoff : BitVec 8}
    {pid : BitVec 8} {v : Word} (h : resolve s.cfg idx onoff = .found pid v) :
    ∃ e, readEnc s.cfg pid.toNat = some e := by
  obtain ⟨x, hx, -, rfl, -⟩ := resolve_eq_found h
  exact readEnc_of_switch hc hx

/-- Everything the end of a pulse unit can do. -/
theorem pulseStep_cases (s : State) :
    (s.pg.phase = .idle ∧ pulseStep s = .next s) ∨
    (∃ e, s.pg.phase ≠ .idle ∧ readEnc s.cfg s.pg.pid.toNat = some e ∧
      pulseStep s = .next { s with toBlock := s.toBlock.setPg (s.pg.step e s.cfg.trailingGap) }) ∨
    (s.pg.phase ≠ .idle ∧ readEnc s.cfg s.pg.pid.toNat = none ∧ pulseStep s = .fault .encIndexOutOfRange) := by
  unfold pulseStep State.onBlock blockPulse
  by_cases hp : s.pg.phase = .idle
  · exact .inl ⟨hp, by rw [if_pos hp]⟩
  · rw [if_neg hp]
    cases he : readEnc s.cfg s.pg.pid.toNat with
    | none => exact .inr (.inr ⟨hp, rfl, rfl⟩)
    | some e => exact .inr (.inl ⟨e, hp, rfl, rfl⟩)

/-- Everything a step with no move scheduled can do. -/
theorem unscheduledStep_cases (s : State) :
    (s.pg.phase = .idle ∧ unscheduledStep s = .next { s with tick := s.tick + 1 }) ∨
    (s.pg.phase ≠ .idle ∧ s.turns = 0 ∧ unscheduledStep s = pulseStep s.drawTurns) ∨
    (∃ k, s.pg.phase ≠ .idle ∧ s.turns = k + 1 ∧
      unscheduledStep s = .next { s with turns := k, tick := s.tick + 1 }) := by
  unfold unscheduledStep
  by_cases hp : s.pg.phase = .idle
  · exact .inl ⟨hp, by rw [if_pos hp]; rfl⟩
  · rw [if_neg hp]
    cases ht : s.turns with
    | zero => exact .inr (.inl ⟨hp, rfl, rfl⟩)
    | succ k => exact .inr (.inr ⟨k, hp, rfl, rfl⟩)

/-- What no command touches: the configuration, the counter, the other moves, the turns and the draws. -/
theorem exec_keeps {i : Instr} {s t : State} (h : exec i s = .next t) :
    t.cfg = s.cfg ∧ t.tick = s.tick ∧ t.moves = s.moves ∧ t.turns = s.turns ∧ t.draws = s.draws := by
  cases i with
  | tick => cases h; exact ⟨rfl, rfl, rfl, rfl, rfl⟩
  | arm ticks => cases h; exact ⟨rfl, rfl, rfl, rfl, rfl⟩
  | passed => cases h; exact ⟨rfl, rfl, rfl, rfl, rfl⟩
  | passed1 => cases h; exact ⟨rfl, rfl, rfl, rfl, rfl⟩
  | resolve idx onoff => cases h; exact ⟨rfl, rfl, rfl, rfl, rfl⟩
  | tx pid rep v =>
    obtain ⟨-, hx⟩ | ⟨-, -, hx⟩ | ⟨e, -, -, -, hx⟩ | ⟨e, -, -, -, hx⟩ := execTx_cases pid rep v s <;>
      (rw [exec, hx] at h; cases h; exact ⟨rfl, rfl, rfl, rfl, rfl⟩)
  | send idx onoff rep =>
    obtain ⟨-, hx⟩ | ⟨-, -, hx⟩ | ⟨pid, v, e, -, -, -, -, hx⟩ | ⟨pid, v, -, -, -, -, hx⟩ :=
      execSend_cases idx onoff rep s
    · rw [exec, hx] at h; cases h; exact ⟨rfl, rfl, rfl, rfl, rfl⟩
    · rw [exec, hx] at h; cases h; exact ⟨rfl, rfl, rfl, rfl, rfl⟩
    · rw [exec, hx] at h; cases h; exact ⟨rfl, rfl, rfl, rfl, rfl⟩
    · rw [exec, hx] at h; cases h

/-! ### Commands under the configuration's operand widths -/

theorem decodeAt_of_none {c : Config} {cmd arg : Word} (h : decode cmd arg = none) : decodeAt c cmd arg = none := by
  rw [decodeAt, h]

theorem decodeAt_of_some {c : Config} {cmd arg : Word} {i : Instr} (h : decode cmd arg = some i) :
    decodeAt c cmd arg = operandsAt c i := by
  rw [decodeAt, h]

/-- Where widths matter: what `decodeAt` gives was decoded, and its operands fit. -/
theorem decodeAt_eq_some {c : Config} {cmd arg : Word} {i : Instr} (h : decodeAt c cmd arg = some i) :
    ∃ j, decode cmd arg = some j ∧ operandsAt c j = some i := by
  cases hd : decode cmd arg with
  | none => rw [decodeAt_of_none hd] at h; cases h
  | some j => exact ⟨j, rfl, by rw [← decodeAt_of_some hd]; exact h⟩

/-- The operands that start a transmission fit their widths (00_scope.md R5 `PID_W`, `REP_W`). -/
theorem tx_operands_fit {c : Config} {cmd arg : Word} {pid : BitVec 8} {rep : BitVec 16} {v : BitVec 32}
    (h : decodeAt c cmd arg = some (.tx pid rep v)) : pid.toNat < 2 ^ c.pidW ∧ rep.toNat < 2 ^ c.repW := by
  obtain ⟨j, -, hj⟩ := decodeAt_eq_some h
  cases j with
  | tx a b d =>
    simp only [operandsAt] at hj
    split at hj
    · cases hj; assumption
    · cases hj
  | tick => cases hj
  | arm t => cases hj
  | passed => cases hj
  | passed1 => cases hj
  | resolve a b => simp only [operandsAt] at hj; split at hj <;> cases hj
  | send a b r => simp only [operandsAt] at hj; split at hj <;> cases hj

/-- SEND's repeat count fits `REP_W`. -/
theorem send_rep_fits {c : Config} {cmd arg : Word} {idx : BitVec 16} {onoff : BitVec 8} {rep : BitVec 16}
    (h : decodeAt c cmd arg = some (.send idx onoff rep)) : rep.toNat < 2 ^ c.repW := by
  obtain ⟨j, -, hj⟩ := decodeAt_eq_some h
  have fits : ∀ r : BitVec 16, (BitVec.ofNat 16 (r.toNat % 2 ^ c.repW)).toNat < 2 ^ c.repW := fun r =>
    Nat.lt_of_le_of_lt (by simpa using Nat.mod_le _ _) (Nat.mod_lt r.toNat (Nat.two_pow_pos c.repW))
  cases j with
  | send a b r =>
    simp only [operandsAt] at hj
    split at hj
    · cases hj; exact fits r
    · cases hj
  | tick => cases hj
  | arm t => cases hj
  | passed => cases hj
  | passed1 => cases hj
  | resolve a b => simp only [operandsAt] at hj; split at hj <;> cases hj
  | tx a b d => simp only [operandsAt] at hj; split at hj <;> cases hj

end Sys2Proof.Machine
end

