-- ==== Sys2Proof/Tests/Slice0.lean ====
section
/-! SUPPORT. The model's own tests. Expected results are the worked vectors of spec/95_test_vectors.md, named in each
docstring, or hand calculation from the rule named. -/

namespace Sys2Proof.Tests

open Sys2Proof.Machine

/-- Protocol P0 of 95 CFG-A. -/
def p0 : Encoding :=
  { gap := 5, bitCount := 4, preambleHigh := 0, preambleLow := 0, sym0 := ⟨1, 2⟩, sym1 := ⟨3, 4⟩ }

/-- Protocol P1 of 95 CFG-C. -/
def p1 : Encoding :=
  { gap := 6, bitCount := 2, preambleHigh := 10, preambleLow := 7, sym0 := ⟨1, 3⟩, sym1 := ⟨3, 1⟩ }

/-- 95 CFG-B. -/
def cfgB : Config :=
  { Config.unloaded with enc := [p0], sw := [⟨0, 0x5, 0xA⟩, ⟨0, 0x3, 0xC⟩, ⟨0, 0x0, 0xF⟩] }

/-- 95 CFG-C. -/
def cfgC : Config := { cfgB with enc := [p0, p1] }

/-- An idle block after reset under `c` at tick `t`, with the moves `ms` to come. -/
def idle (c : Config) (t : Tick) (ms : List Move) : State :=
  { cfg := c, tick := t, wv := .always, fault := .noFault, pg := ⟨.idle, 0, 0, 0, 0, 0⟩, resp := none, moves := ms,
    draws := 0, turns := 0 }

/-- The same block in the last pulse unit but two of a transmission of P0. -/
def sending (t : Tick) (ms : List Move) : State := { idle cfgB t ms with pg := ⟨.symL, 3, 3, 0, 0, 0xA⟩ }

/-- What the test looks at in the state a step answers. -/
def seen {α : Type} (o : Host.Outcome State Fault Refusal) (f : State → α) : Option α :=
  match o with
  | .next s => some (f s)
  | .fault _ => none
  | .refused _ => none

/-- The step is refused. -/
def isRefused (o : Host.Outcome State Fault Refusal) : Bool :=
  match o with
  | .next _ => false
  | .fault _ => false
  | .refused _ => true

/-! ## Encodings, written out from 30_encoding.md R61 and R65 -/

theorem test_decode_tick : decode 0b00010000000000000000000000000000#32 0xDEAD#32 = some .tick := by decide
theorem test_decode_arm : decode 0b00100000000000000001111010000100#32 0#32 = some (.arm 7812) := by decide
theorem test_decode_passed : decode 0b00110000000000000000000000000000#32 0#32 = some .passed := by decide
theorem test_decode_passed1 : decode 0b01000000000000000000000000000000#32 0#32 = some .passed1 := by decide
theorem test_decode_resolve : decode 0b01010000000000010000000001100011#32 0#32 = some (.resolve 99 1) := by decide
theorem test_decode_tx : decode 0b01100000000000000000001000000001#32 0xA#32 = some (.tx 1 2 0xA) := by decide
theorem test_decode_send : decode 0b01110000000000010000000000000010#32 0xABCD0003#32 = some (.send 2 1 3) := by decide

/-- T-FLT-1 to T-FLT-6 and T-FLT-13. -/
theorem test_decode_illegal :
    [0x00000000#32, 0x80000000#32, 0x11000000#32, 0x10000001#32, 0x20010000#32, 0x51000000#32, 0x61000100#32].map
      (fun w => decode w 0) = List.replicate 7 none := by decide

theorem test_encode_tx : encode (.tx 0 2 0xA) = (0x60000200#32, 0x0000000A#32) := by decide
theorem test_encode_send : encode (.send 0 1 2) = (0x70010000#32, 0x00000002#32) := by decide
theorem test_table_word : decodeTableWord 64 0x0000000A60000200 = some (.tx 0 2 0xA) := by decide
theorem test_table_word_short : decodeTableWord 32 0x0000000A60000200 = some (.tx 0 2 0) := by decide

/-! ## Smoke: every check refuses an ill-formed term -/

theorem test_fits_arm : (Line.arm 65536).fits = false := by decide
theorem test_fits_resolve_idx : (Line.resolve 65536 0).fits = false := by decide
theorem test_fits_resolve_onoff : (Line.resolve 0 256).fits = false := by decide
theorem test_fits_tx_pid : (Line.tx 256 0 0).fits = false := by decide
theorem test_fits_tx_rep : (Line.tx 0 65536 0).fits = false := by decide
theorem test_fits_tx_value : (Line.tx 0 0 4294967296).fits = false := by decide
theorem test_fits_send_idx : (Line.send 65536 0 0).fits = false := by decide
theorem test_fits_send_onoff : (Line.send 0 256 0).fits = false := by decide
theorem test_fits_send_rep : (Line.send 0 0 65536).fits = false := by decide
theorem test_fits_raw_cmd : (Line.raw 4294967296 0).fits = false := by decide
theorem test_fits_raw_arg : (Line.raw 0 4294967296).fits = false := by decide
theorem test_fits_largest : (Line.tx 255 65535 4294967295).fits = true := by decide

/-- `TX 0, 0x2, 0b1010 ; c` and `PASSED1`, from R69. -/
theorem test_read_line :
    readLine ['T', 'X', ' ', '0', ',', ' ', '0', 'x', '2', ',', '0', 'b', '1', '0', '1', '0', ' ', ';', 'c'] =
      some [.tx 0 2 10] ∧ readLine ['P', 'A', 'S', 'S', 'E', 'D', '1'] = some [.passed1] ∧ readLine [';'] = some [] := by
  decide

/-- `TX 256, 1, 0` does not fit, `ARM` lacks an operand, `ARM 0x` and `ARM 0b2` are no literals. -/
theorem test_read_line_refused :
    [['T', 'X', ' ', '2', '5', '6', ',', '1', ',', '0'], ['A', 'R', 'M'], ['A', 'R', 'M', ' ', '0', 'x'],
      ['A', 'R', 'M', ' ', '0', 'b', '2']].map readLine = [none, none, none, none] := by decide

theorem test_admitted : admitted cfgB = true ∧ admitted cfgC = true := by decide
theorem test_w1 : checkW1 { cfgB with enc := List.replicate 257 p0 } = false := by
  decide +kernel
theorem test_w2 : checkW2 { cfgB with sw := [⟨1, 0, 0⟩] } = false := by decide
theorem test_w3_off : checkW3 { cfgB with sw := [⟨0, 16, 0⟩] } = false := by decide
theorem test_w3_on : checkW3 { cfgB with sw := [⟨0, 0, 16⟩] } = false := by decide
theorem test_w4 : checkW4 { cfgB with enc := [{ p0 with sym1 := ⟨3, 65536⟩ }] } = false := by decide
theorem test_w4_bit_count : checkW4 { cfgB with enc := [{ p0 with bitCount := 256 }] } = false := by decide
theorem test_w4_protocol : checkW4 { cfgB with pidW := 0, sw := [⟨1, 0, 0⟩] } = false := by decide
theorem test_refused : isRefused (step (idle { cfgB with sw := [⟨1, 0, 0⟩] } 0 [.tick])) = true := by decide

/-! ## One step of each command -/

/-- T-TCK-1. -/
theorem test_tick : seen (step (idle cfgB 0x1234 [.command 0x10000000 0xDEAD])) (·.resp) = some (some ⟨0x1234, 0, false⟩) := by
  decide

/-- T-ARM-1. -/
theorem test_arm_wraps : seen (step (idle cfgB 0xFFF0 [.command 0x20000020 0])) (fun s => (s.wv, s.resp)) =
    some (⟨0xFFF0, 0x0010⟩, some ⟨0x0010FFF0, 0, false⟩) := by decide

/-- T-ARM-6: accepted while busy, and the generator is unchanged. -/
theorem test_arm_busy : seen (step (sending 100 [.command 0x20000064 0])) (fun s => (s.wv, s.pg)) =
    some (⟨100, 200⟩, (sending 100 []).pg) := by decide

/-- T-TIM-3, T-TIM-4, T-TIM-5, T-TIM-7. -/
theorem test_has_passed :
    [0, 99, 100, 150, 199, 200, 0xFFFF].map (hasPassed ⟨100, 200⟩) = [true, true, false, false, false, true, true] ∧
    [0xFFEF, 0xFFF0, 0xFFFF, 0, 0xF, 0x10].map (hasPassed ⟨0xFFF0, 0x10⟩) = [true, false, false, false, false, true] ∧
    [0xFFFE, 0xFFFF, 0, 0x7FFF].map (hasPassed ⟨0xFFFF, 0⟩) = [true, false, true, true] ∧
    [0, 1, 0xFFFF].map (hasPassed ⟨1, 0⟩) = [true, false, false] := by decide

/-- T-PAS-2. -/
theorem test_passed : seen (step { idle cfgB 200 [.command 0x30000000 0] with wv := ⟨100, 200⟩ })
    (fun s => (s.resp, s.wv)) = some (some ⟨0, 0, true⟩, ⟨100, 200⟩) := by decide

/-- T-PO-1. -/
theorem test_passed1_not_yet : seen (step { idle cfgB 0x0005 [.command 0x40000000 0] with wv := ⟨0xFFF0, 0x10⟩ })
    (fun s => (s.resp, s.wv)) = some (some ⟨0, 0, false⟩, ⟨0xFFF0, 0x10⟩) := by decide

/-- T-PO-2. -/
theorem test_passed1_consumes : seen (step { idle cfgB 0x0011 [.command 0x40000000 0] with wv := ⟨0xFFF0, 0x10⟩ })
    (fun s => (s.resp, s.wv)) = some (some ⟨0, 0, true⟩, .always) := by decide

/-- T-REG-9: accepted while busy. -/
theorem test_resolve : seen (step (sending 0 [.command 0x50010001 0])) (·.resp) = some (some ⟨0xC, 0, true⟩) := by decide

/-- T-REG-2, T-REG-4, T-REG-6, T-REG-7. -/
theorem test_resolve_corners : [resolve cfgB 2 0, resolve cfgB 3 0, resolve cfgB 0 2, resolve cfgB 0 255] =
    [.found 0 0, .notFound, .notFound, .notFound] := by decide

/-- T-TX-1 with the first row of T-PG-1's trace. -/
theorem test_tx : seen (step (idle cfgB 0 [.command 0x60000200 0xA])) (fun s => (s.pg, s.resp)) =
    some (⟨.symH, 1, 0, 1, 0, 0xA⟩, some .zero) := by decide

/-- T-FLT-11: BadProtocolId even with `rep = 0`. -/
theorem test_tx_bad_protocol : seen (step (idle cfgB 0 [.command 0x60000001 5])) (fun s => (s.faultCode, s.pg.phase)) =
    some (3, .idle) := by decide

/-- P3 step 2. -/
theorem test_send : seen (step (idle cfgB 0 [.command 0x70010001 3])) (fun s => (s.pg, s.resp)) =
    some (⟨.symH, 1, 0, 2, 0, 0xC⟩, some .zero) := by decide

/-- T-FLT-9: Busy before resolve, and the transmission goes on. -/
theorem test_send_busy : seen (step (sending 0 [.command 0x70000063 1])) (fun s => (s.faultCode, s.pg, s.resp)) =
    some (2, (sending 0 []).pg, some .zero) := by decide

/-- T-FLT-13: Illegal before Busy. -/
theorem test_illegal : seen (step (sending 0 [.command 0x61000100 0])) (·.faultCode) = some 1 := by decide

/-- P4 step 6: the first fault is kept. -/
theorem test_fault_sticky : seen (step { idle cfgB 0 [.command 0 0] with fault := .busy }) (·.faultCode) = some 2 := by decide

/-! ## The other agents -/

/-- 10_state.md R21: the wrap gives no signal. -/
theorem test_tick_wraps : seen (step (idle cfgB 0xFFFF [.tick])) (fun s => (s.tick, s.faultCode)) = some (0, 0) := by decide

/-- 42_pulse.md R129: the last unit of bit 3 goes to IDLE. -/
theorem test_pulse_ends : seen (step { sending 0 [.pulse] with pg := ⟨.symL, 1, 3, 0, 0, 0xA⟩ }) (fun s => (s.busy, s.rfOut)) =
    some (false, .low) := by decide

/-- T-PG-1, step 25: GAP to SYM_H of bit 0 with `left` 0, past the zero preamble. -/
theorem test_pulse_gap : seen (step { sending 0 [.pulse] with pg := ⟨.gap, 1, 0, 1, 0, 0xA⟩ }) (·.pg) =
    some ⟨.symH, 1, 0, 0, 0, 0xA⟩ := by decide

/-- 70_reset_and_hazards.md R180, R181: the tick stays. -/
theorem test_reset : seen (step { sending 77 [.reset none] with wv := ⟨1, 2⟩, fault := .busy })
    (fun s => (s.busy, s.faultCode, s.wv, s.tick)) = some (false, 0, .always, 77) := by decide

/-- P2's start: power-on with the tick drawn as 0xFFF0. -/
theorem test_power_on : seen (step { State.reset with moves := [.powerOn cfgB 0xFFF0] }) (fun s => (s.tick, s.due, s.cfg)) =
    some (0xFFF0, true, cfgB) := by decide

/-- A word of every row of opcode_table.json is the first command after reset, and it answers a next state. -/
theorem test_first_step_runs :
    [0x10000000, 0x20000000, 0x30000000, 0x40000000, 0x50000000, 0x60000000, 0x70000000].map
      (fun w => seen (step (State.reset.withFetchWord 32 w)) (·.moves)) = List.replicate 7 (some []) := by decide

/-- Right after reset, with nothing loaded, TX runs and finds no protocol (41_registry.md R100). -/
theorem test_first_step : seen (step (State.reset.withFetchWord 32 0x60000200)) (·.faultCode) = some 3 := by decide

/-! ## Waveforms -/

/-- T-PG-1, from its wire line: H1 L2 H3 L4 H1 L2 H3 L9 H1 L2 H3 L4 H1 L2 H3 L4. -/
theorem test_waveform_pg1 : units (waveform p0 false 0xA 2) =
    units [⟨.high, 1⟩, ⟨.low, 2⟩, ⟨.high, 3⟩, ⟨.low, 4⟩, ⟨.high, 1⟩, ⟨.low, 2⟩, ⟨.high, 3⟩, ⟨.low, 9⟩,
      ⟨.high, 1⟩, ⟨.low, 2⟩, ⟨.high, 3⟩, ⟨.low, 4⟩, ⟨.high, 1⟩, ⟨.low, 2⟩, ⟨.high, 3⟩, ⟨.low, 4⟩] := by decide

/-- T-PG-9. -/
theorem test_waveform_pg9 : waveform p1 false 0b10 2 =
    [⟨.high, 10⟩, ⟨.low, 7⟩, ⟨.high, 1⟩, ⟨.low, 3⟩, ⟨.high, 3⟩, ⟨.low, 1⟩, ⟨.low, 6⟩,
      ⟨.high, 10⟩, ⟨.low, 7⟩, ⟨.high, 1⟩, ⟨.low, 3⟩, ⟨.high, 3⟩, ⟨.low, 1⟩] := by decide

/-- T-PG-3, T-PG-6, T-PG-12 and T-PG-13: the lengths. -/
theorem test_total_units :
    [totalUnits p0 false 0x5 3, totalUnits p0 true 0xA 1,
      totalUnits { p0 with bitCount := 0, preambleHigh := 2, preambleLow := 3 } false 0xFF 2,
      totalUnits { p0 with bitCount := 34, gap := 0, sym0 := ⟨1, 1⟩, sym1 := ⟨2, 2⟩ } false 0xFFFFFFFF 1] =
    [70, 25, 15, 132] := by decide

/-- T-PG-17: a waveform of zero-length segments ends in the command's step. -/
theorem test_tx_empty : seen (execTx 0 5 5 (idle { cfgB with enc := [{ p0 with gap := 0, bitCount := 3, sym0 := ⟨0, 0⟩, sym1 := ⟨0, 0⟩ }] } 0 []))
    (·.busy) = some false := by decide

/-- P4 step 7: 28 generator steps. -/
theorem test_wait_idle : (lineMoves { idle cfgB 0 [] with pg := ⟨.symH, 3, 0, 0, 0, 0xF⟩ } .waitIdle).map (·.length) = some 28 := by
  decide

/-! ## Witnesses: a state and operands that meet each statement's hypotheses, named after the statement -/

/-- A busy block in the first pulse unit of the gap between two frames of P0. -/
def inGap (ms : List Move) : State := { idle cfgB 9 ms with pg := ⟨.gap, 5, 0, 1, 0, 0xA⟩ }

theorem idle_inv (t : Tick) (ms : List Move) : (idle cfgB t ms).Inv where
  cfg_admitted := show admitted cfgB = true by decide
  rem_fits := show 0 < 2 ^ 16 by decide
  bit_fits := show 0 < 2 ^ 8 by decide
  left_fits := show (0 : BitVec 16).toNat < 2 ^ 16 by decide
  pid_fits := show (0 : BitVec 8).toNat < 2 ^ 8 by decide
  busy_ok h := by cases h

theorem inGap_inv (ms : List Move) : (inGap ms).Inv where
  cfg_admitted := show admitted cfgB = true by decide
  rem_fits := show 5 < 2 ^ 16 by decide
  bit_fits := show 0 < 2 ^ 8 by decide
  left_fits := show (1 : BitVec 16).toNat < 2 ^ 16 by decide
  pid_fits := show (0 : BitVec 8).toNat < 2 ^ 8 by decide
  busy_ok _ := ⟨p0, rfl,
    { bit_lt := fun h => by rcases h with h | h <;> cases h
      rem_pos := show 1 ≤ 5 by decide
      rem_le := show 5 ≤ 5 by decide
      left_le := show (1 : BitVec 16).toNat ≤ 65534 by decide }⟩

theorem witness_PassedOnceConsumesTheDeadline :
    hasPassed ⟨100, 200⟩ 200 = true ∧ hasPassed ⟨100, 200⟩ 99 = true ∧
      hasPassed ⟨100, 200⟩ 199 = false ∧ hasPassed ⟨100, 200⟩ 100 = false := by decide

theorem witness_ResolveLooksUpTheSwitch :
    cfgB.sw.length ≤ (3 : BitVec 16).toNat ∧ 1 < (2 : BitVec 8).toNat ∧
      cfgB.sw[(2 : BitVec 16).toNat]? = some ⟨0, 0x0, 0xF⟩ := by decide

theorem witness_TxStartsOrFaults :
    (inGap []).pg.phase ≠ .idle ∧ (idle cfgB 0 []).pg.phase = .idle ∧ cfgB.enc.length ≤ (1 : BitVec 8).toNat ∧
      (0 : BitVec 8).toNat < cfgB.enc.length ∧ cfgB.enc[(0 : BitVec 8).toNat]? = some p0 ∧ (1 : BitVec 16) ≠ 0 := by
  decide

theorem witness_SendStartsOrDoesNothing :
    admitted cfgB = true ∧ (inGap []).pg.phase ≠ .idle ∧ (idle cfgB 0 []).pg.phase = .idle ∧
      cfgB.sw.length ≤ (3 : BitVec 16).toNat ∧ 1 < (2 : BitVec 8).toNat ∧
      cfgB.sw[(2 : BitVec 16).toNat]? = some ⟨0, 0x0, 0xF⟩ ∧ (1 : BitVec 8).toNat ≤ 1 ∧ (65535 : BitVec 16) ≠ 0 := by
  decide

theorem witness_SendIsResolveThenTx :
    admitted (idle cfgB 0 []).cfg = true ∧ ∃ r, exec (.resolve 1 1) (idle cfgB 0 []) = .next r ∧
      ∃ a, r.resp = some a ∧ a.flag = true :=
  ⟨by decide, _, rfl, _, rfl, rfl⟩

theorem witness_IllegalWordsFault :
    admitted (idle cfgB 0 []).cfg = true ∧ (idle cfgB 0 [.command 0x80000000 7]).moves = .command 0x80000000 7 :: [] ∧
      decode 0x80000000 7 = none := by decide

theorem witness_OpcodeMapSelects :
    (∃ i, decode 0x5001FFFF 9 = some i) ∧ decode 0x51000000 0 = none ∧
      rowOf (.arm 0) ∈ opcodeMap ∧ (rowOf (.arm 0)).selects 0x2000FFFF = true := by
  exact ⟨⟨_, rfl⟩, by decide, by decide, by decide⟩

/-- Each field's largest operand, and the smallest that does not fit. -/
theorem witness_AssemblerKeepsOperands :
    lineMoves (idle cfgB 0 []) (.tx 255 65535 4294967295) = some [.command 0x60FFFFFF 0xFFFFFFFF] ∧
      lineMoves (idle cfgB 0 []) (.send 65535 255 65535) = some [.command 0x70FFFFFF 0xFFFF] ∧
      lineMoves (idle cfgB 0 []) (.raw 4294967295 4294967295) = some [.command 0xFFFFFFFF 0xFFFFFFFF] ∧
      [Line.arm 65536, .resolve 65536 0, .resolve 0 256, .tx 256 0 0, .tx 0 65536 0, .tx 0 0 4294967296,
        .send 65536 0 0, .send 0 256 0, .send 0 0 65536, .raw 4294967296 0, .raw 0 4294967296].map
          (lineMoves (idle cfgB 0 [])) = List.replicate 11 none := by decide

theorem witness_AcceptedTextFits : readLine ['A', 'R', 'M', ' ', '6', '5', '5', '3', '5'] = some [.arm 65535] := by decide

/-- A comment for the tail, and 65536 in each of the three notations. -/
theorem witness_TextReadsAsItsLine :
    [';', 'c'] = ';' :: ['c'] ∧ ['6', '5', '5', '3', '6'] = Nat.toDigits 10 65536 ∧
      '0' :: 'x' :: ['1', '0', '0', '0', '0'] = '0' :: 'x' :: Nat.toDigits 16 65536 ∧
      '0' :: 'b' :: '1' :: List.replicate 16 '0' = '0' :: 'b' :: Nat.toDigits 2 65536 ∧
      readLine (['A', 'R', 'M', ' '] ++ ['6', '5', '5', '3', '6'] ++ [';', 'c']) = none := by decide

/-- Protocol ids of 4 bits: 15 fits, 16 does not; and the printed widths. -/
theorem witness_OperandWidthsOfTheConfiguration :
    decode 0x6000010F 0 = some (.tx 15 1 0) ∧ decodeAt { cfgB with pidW := 4 } 0x6000010F 0 = some (.tx 15 1 0) ∧
      decode 0x60000110 0 = some (.tx 16 1 0) ∧ decodeAt { cfgB with pidW := 4 } 0x60000110 0 = none ∧
      decodeAt { cfgB with repW := 4 } 0x70000000 0x13 = some (.send 0 0 3) ∧
      decodeAt { cfgB with idxW := 4 } 0x50000010 0 = none ∧ decodeAt { cfgB with onoffW := 1 } 0x50020000 0 = none ∧
      16 ≤ cfgB.idxW ∧ 8 ≤ cfgB.onoffW ∧ 8 ≤ cfgB.pidW ∧ 16 ≤ cfgB.repW := by decide

theorem witness_StepRunsTheDecodedCommand :
    admitted cfgB = true ∧ (sending 0 [.command 0x60000100 7]).moves = .command 0x60000100 7 :: [] ∧
      decodeAt cfgB 0x60000100 7 = some (.tx 0 1 7) := by decide

theorem witness_FaultOrderAndEffect :
    admitted cfgB = true ∧ decodeAt cfgB 0 0 = none ∧ decodeAt cfgB 0x60000001 0 = some (.tx 1 0 0) ∧
      (sending 0 [.command 0x60000001 0]).busy = true ∧ (idle cfgB 0 [.command 0x60000001 0]).busy = false ∧
      cfgB.enc.length ≤ (1 : BitVec 8).toNat ∧ (0 : BitVec 8).toNat < cfgB.enc.length ∧
      decodeAt cfgB 0x70000000 1 = some (.send 0 0 1) ∧ decodeAt cfgB 0x10000000 1 = some .tick := by decide

theorem witness_OnlyResetClearsTheFault :
    (∃ t, step { idle cfgB 0 [.command 0 0] with fault := .busy } = .next t) ∧
      (∃ t, step { idle cfgB 0 [.reset none] with fault := .busy } = .next t) ∧
      (Move.command 0 0).isReset = false ∧ (Move.reset none).isReset = true :=
  ⟨⟨_, rfl⟩, ⟨_, rfl⟩, rfl, rfl⟩

theorem witness_OnlyThreeWritersOfTheWaitValue :
    ∃ t, step (idle cfgB 5 [.command 0x20000001 0]) = .next t ∧ t.wv ≠ (idle cfgB 5 []).wv :=
  ⟨_, rfl, by decide⟩

theorem witness_OnlyTheCounterAgentMovesTheTick :
    admitted cfgB = true ∧ ∃ t, step (idle cfgB 5 [.powerOn cfgC 9]) = .next t ∧ Move.powerOn cfgC 9 ≠ .tick :=
  ⟨by decide, _, rfl, by decide⟩

theorem witness_TablesAreImmutable :
    ∃ t, step (idle cfgB 5 [.reset (some cfgC)]) = .next t ∧ t.cfg ≠ cfgB :=
  ⟨_, rfl, by decide⟩

/-- Of UnscheduledRunsAreFair too: idle, busy with the generator's turn, and busy with three turns of the counter before. -/
theorem witness_UnscheduledStepIsAnAgentsStep :
    (idle cfgB 0 []).Inv ∧ (idle cfgB 0 []).moves = [] ∧ (idle cfgB 0 []).busy = false ∧ (inGap []).Inv ∧
      (inGap []).moves = [] ∧ (inGap []).busy = true ∧ (inGap []).turns = 0 ∧
      { inGap [] with turns := 3 }.Inv ∧ { inGap [] with turns := 3 }.turns = 2 + 1 :=
  ⟨idle_inv 0 [], rfl, rfl, inGap_inv [], rfl, rfl, rfl,
    ⟨(inGap_inv []).1, (inGap_inv []).2, (inGap_inv []).3, (inGap_inv []).4, (inGap_inv []).5, (inGap_inv []).6⟩, rfl⟩

/-- A protocol whose frame is one unit of its preamble. -/
def oneUnit : Config :=
  { cfgB with enc := [⟨0, 0, 1, 0, ⟨0, 0⟩, ⟨0, 0⟩⟩], sw := [] }

/-- The run of `oneUnitMoves`: idle, then busy for one step, then idle again with the counter stepping at every other one. -/
def oneUnitRun : Nat → State
  | 0 => idle oneUnit 0 []
  | 1 => { idle oneUnit 0 [] with pg := ⟨.preH, 1, 0, 0, 0, 0⟩, resp := some .zero }
  | n + 2 => { idle oneUnit (BitVec.ofNat 16 ((n + 1) / 2)) [] with pg := ⟨.idle, 1, 0, 0, 0, 0⟩, resp := some .zero }

/-- TX 0, 1, 0; then the generator and the counter in turn. -/
def oneUnitMoves (n : Nat) : Move :=
  if n = 0 then .command 0x60000100 0 else if n % 2 = 1 then .pulse else .tick

theorem oneUnit_runs : RunOf oneUnitRun oneUnitMoves where
  no_other n := by
    match n with
    | 0 => rfl
    | 1 => rfl
    | n + 2 => rfl
  makes n := by
    match n with
    | 0 => rfl
    | 1 => rfl
    | n + 2 =>
      have hm : oneUnitMoves (n + 2) = if n % 2 = 1 then .pulse else .tick := by
        simp [oneUnitMoves]
      rw [hm]
      by_cases h : n % 2 = 1
      · rw [if_pos h]
        have : (n + 1 + 1) / 2 = (n + 1) / 2 := by omega
        simp only [oneUnitRun, this]
        rfl
      · rw [if_neg h]
        have : (n + 1 + 1) / 2 = (n + 1) / 2 + 1 := by omega
        simp only [oneUnitRun, this, BitVec.ofNat_add]
        rfl

theorem oneUnit_fair : WeaklyFair oneUnitRun oneUnitMoves where
  counter n := ⟨2 * n + 2, by omega, by simp [oneUnitMoves]⟩
  generator n _ := ⟨2 * n + 1, by omega, by simp [oneUnitMoves, Nat.add_mod]⟩

theorem witness_TransmissionsEndUnderFairness :
    RunOf oneUnitRun oneUnitMoves ∧ WeaklyFair oneUnitRun oneUnitMoves ∧
      oneUnitMoves 0 = .command 0x60000100 0 ∧ (oneUnitRun 0).busy = false ∧ (oneUnitRun 1).busy = true ∧
      decodeAt (oneUnitRun 0).cfg 0x60000100 0 = some (.tx 0 1 0) ∧
      (∃ e, readEnc (oneUnitRun 0).cfg 0 = some e ∧ totalUnits e false 0 1 = 1) ∧
      ∀ k, 0 < k → (oneUnitMoves k).isReset = false := by
  refine ⟨oneUnit_runs, oneUnit_fair, rfl, rfl, rfl, by decide, ⟨_, rfl, by decide⟩, fun k hk => ?_⟩
  unfold oneUnitMoves
  rw [if_neg (by omega)]
  split <;> rfl

/-- Of TickAndPulseCommute, EveryStepKeepsTheInvariant and NoStepStopsTheBlock: a busy state with the invariant whose step
answers a next state, and an idle one whose step is refused. -/
theorem witness_EveryStepKeepsTheInvariant :
    (inGap [.pulse]).Inv ∧ (∃ t, step (inGap [.pulse]) = .next t) ∧
      (idle cfgB 0 [.reset (some { cfgB with enc := [] })]).Inv ∧ admitted { cfgB with enc := [] } = false :=
  ⟨inGap_inv _, ⟨_, rfl⟩, idle_inv 0 _, by decide⟩

theorem witness_ResetWritesItsValues :
    admitted cfgB = true ∧ admitted cfgC = true ∧ (inGap [.reset none]).moves = [.reset none] ∧
      admitted ((some cfgC).getD cfgB) = true ∧ admitted (Option.getD none cfgB) = true := by decide

theorem witness_OnlyAdmittedConfigurationsRun : admitted { cfgB with sw := [⟨1, 0, 0⟩] } = false := by decide

theorem witness_IdleGeneratorRegistersNeverMatter :
    (idle cfgB 0 [.command 0x60000200 0xA]).Agree
      { idle cfgB 0 [.command 0x60000200 0xA] with pg := ⟨.idle, 9, 8, 7, 6, 5⟩ } :=
  ⟨rfl, rfl, rfl, rfl, rfl, rfl, rfl, rfl, rfl, fun h => by cases h⟩

/-- Of ArmThenPassedAfterTicks, FirstPassedOnceAfterResetReports, AlwaysIsAbsorbing and ResetStateOfTheSpec. -/
theorem witness_AlwaysIsAbsorbing :
    admitted cfgB = true ∧ (idle cfgB 5 [.command 0x20000001 0]).wv = ⟨0, 0⟩ ∧ (idle cfgB 5 []).pg.phase = .idle ∧
      ∃ t, step (idle cfgB 5 [.command 0x20000001 0]) = .next t ∧ t.wv ≠ ⟨0, 0⟩ :=
  ⟨by decide, rfl, rfl, _, rfl, by decide⟩

theorem witness_ResolveReadsOnlyTheSwitchTable :
    (idle cfgB 0 []).cfg.sw = (inGap [.tick]).cfg.sw ∧ (idle cfgB 0 []) ≠ inGap [.tick] := by decide

theorem witness_SaturatedOperandsNeverAlias :
    admitted cfgB = true ∧ cfgB.sw[2]? = some ⟨0, 0x0, 0xF⟩ ∧ cfgB.sw.length ≤ 65538 ∧ 65535 < 65538 ∧ 255 < 257 := by
  decide

theorem witness_StartLatchesAndSkipsEmptySegments :
    (1 : BitVec 16) ≠ 0 ∧ ∃ t, step (idle cfgB 0 [.command 0x60000100 5]) = .next t ∧ t.pg ≠ (idle cfgB 0 []).pg :=
  ⟨by decide, _, rfl, by decide⟩

theorem witness_GeneratorStepEndsOnePulseUnit :
    admitted cfgB = true ∧ (inGap [.pulse]).pg.phase ≠ .idle ∧ cfgB.enc[(inGap []).pg.pid.toNat]? = some p0 ∧
      1 < (inGap []).pg.rem ∧ (sending 0 [.pulse]).pg.rem = 3 ∧
      { (inGap []).pg with rem := 1 }.rem ≤ 1 := by decide

theorem witness_PulseWhileIdleChangesNothing :
    admitted cfgB = true ∧ (idle cfgB 0 [.pulse]).moves = .pulse :: [] ∧ (idle cfgB 0 [.pulse]).busy = false := by decide

theorem witness_NoCommandCancelsATransmission :
    admitted cfgB = true ∧ (inGap [.command 0x70000001 1]).busy = true ∧
      (∃ t, step (inGap [.command 0x70000001 1]) = .next t) ∧ (Move.command 0x70000001 1).isReset = false :=
  ⟨by decide, by decide, ⟨_, rfl⟩, rfl⟩

/-- One unit before the end of the one-frame waveform of pattern 0, 12 units long, with a command and a tick between. -/
theorem witness_TransmissionEmitsItsWaveform :
    admitted cfgB = true ∧ (idle cfgB 0 []).pg.phase = .idle ∧ cfgB.enc[(0 : BitVec 8).toNat]? = some p0 ∧
      (1 : BitVec 16) ≠ 0 ∧ (units (waveform p0 false 0 1)).length = 12 ∧
      (.command 0x10000000 0 :: .tick :: List.replicate 11 .pulse : List Move).all (!·.isReset) = true ∧
      (.command 0x10000000 0 :: .tick :: List.replicate 11 .pulse : List Move).countP (·.isPulse) + 1 = 12 ∧
      units (waveform { p0 with gap := 0, bitCount := 0 } false 0 2) = [] := by decide

theorem witness_FrameDeterminesThePattern :
    1 ≤ p0.bitCount ∧ p0.sym0 ≠ p0.sym1 ∧ (0xA : Word) ≠ 0xFA ∧ frame p0 0xA = frame p0 0xFA ∧
      (0xA : Word).toNat < 2 ^ p0.bitCount ∧ 0 < p0.sym0.high ∧ 0 < p0.sym0.low ∧ 0 < p0.sym1.high ∧
      0 < p0.sym1.low ∧ p0.sym0.high ≠ p0.sym1.high ∧
      units (frame p0 0xA) ++ List.replicate 3 .low = units (frame p0 0xFA) ++ List.replicate 3 .low := by decide

/-- Of WaitingLinesWaitExactly: a busy state with a deadline to come. -/
theorem witness_WaitingLinesWaitExactly :
    { inGap [] with wv := ⟨5, 20⟩ }.Inv ∧ { inGap [] with wv := ⟨5, 20⟩ }.due = false ∧ (inGap []).busy = true :=
  ⟨⟨(inGap_inv []).1, (inGap_inv []).2, (inGap_inv []).3, (inGap_inv []).4, (inGap_inv []).5, (inGap_inv []).6⟩,
    by decide, by decide⟩

end Sys2Proof.Tests
end

section
/-! What the numbers of the outputs say about the registers they are computed from (spec 00_scope.md R10, 10_state.md R30,
R31, R33, R34), and from these the four outputs as functions of the state. -/

namespace Sys2Proof

theorem Level.bit_eq_one (l : Level) : l.bit = 1 ↔ l = .high := by
  cases l <;> decide

theorem Level.bit_eq_zero (l : Level) : l.bit = 0 ↔ l = .low := by
  cases l <;> decide

end Sys2Proof

namespace Sys2Proof.Machine

theorem Phase.level_eq_high (p : Phase) : p.level = .high ↔ p = .preH ∨ p = .symH := by
  cases p <;> decide

theorem Phase.level_eq_low (p : Phase) :
    p.level = .low ↔ p = .idle ∨ p = .preL ∨ p = .symL ∨ p = .gap := by
  cases p <;> decide

theorem Phase.code_eq_zero (p : Phase) : p.code = 0 ↔ p = .idle := by
  cases p <;> decide

/-- The four codes of 60_exceptions.md R150 have four numbers. -/
theorem FaultCode.code_eq_code (f c : FaultCode) : f.code = c.code ↔ f = c := by
  cases f <;> cases c <;> decide

/-- The output names the recorded fault: it is the number of a code exactly when that code is in the register (R34). -/
theorem Block.faultCode_eq_code (s : Block) (c : FaultCode) : s.faultCode = c.code ↔ s.fault = c :=
  FaultCode.code_eq_code s.fault c

theorem Block.rfOut_bit_eq_one (s : Block) : s.rfOut.bit = 1 ↔ s.pg.phase = .preH ∨ s.pg.phase = .symH :=
  (Level.bit_eq_one _).trans (Phase.level_eq_high _)

theorem Block.rfOut_bit_eq_zero (s : Block) :
    s.rfOut.bit = 0 ↔ s.pg.phase = .idle ∨ s.pg.phase = .preL ∨ s.pg.phase = .symL ∨ s.pg.phase = .gap :=
  (Level.bit_eq_zero _).trans (Phase.level_eq_low _)

/-- R31 says `busy` by the name of the phase; this is its form by the number that R30 gives the phase. -/
theorem Block.busy_iff_code_ne_zero (s : Block) : s.busy = true ↔ s.pg.phase.code ≠ 0 := by
  rw [Block.busy_eq_true, Ne, Ne, Phase.code_eq_zero]

/-- Settles O41: each output is read off its register, by the numbers of levels, phases and fault codes. -/
theorem outputsOfTheBlock : Obligations.OutputsOfTheBlock := by
  intro s
  have hfault := s.faultCode_eq_code
  exact ⟨s.rfOut_bit_eq_one, s.rfOut_bit_eq_zero, s.busy_iff_code_ne_zero, rfl,
    hfault .noFault, hfault .illegalCommand, hfault .busy, hfault .badProtocolId⟩

end Sys2Proof.Machine
end

section
/-! What the block's registers hold after one step (spec 10_state.md R21, R26, R35, 70_reset_and_hazards.md R180, R181): the
inversion of each agent's step, then the writers of the WaitValue, the writers of the counter, and the values of a reset. -/

namespace Sys2Proof.Machine

/-! ### What each agent's step answers -/

theorem step_next_of_moves {s t : State} {m : Move} {rest : List Move} (hm : s.moves = m :: rest)
    (h : step s = .next t) : moveStep m { s with moves := rest } = .next t := by
  rw [← step_of_moves (step_next h).1 hm, h]

theorem tickStep_eq (s : State) : tickStep s = .next { s with toBlock := s.toBlock.advanceTick } := rfl

/-- A transaction that answers a next state recorded IllegalCommand or ran its command (30_encoding.md R66, R67). -/
theorem commandStep_next {cmd arg : Word} {s t : State} (h : commandStep cmd arg s = .next t) :
    (decodeAt s.cfg cmd arg = none ∧ t = { s with toBlock := s.toBlock.raiseFault .illegalCommand }) ∨
      ∃ i, decodeAt s.cfg cmd arg = some i ∧ exec i s = .next t := by
  unfold commandStep at h
  cases hd : decodeAt s.cfg cmd arg with
  | none => rw [hd] at h; cases h; exact .inl ⟨rfl, rfl⟩
  | some i => rw [hd] at h; exact .inr ⟨i, rfl, h⟩

/-- The end of a pulse unit writes the generator's registers at most (42_pulse.md R129). -/
theorem pulseStep_next {s t : State} (h : pulseStep s = .next t) :
    ∃ g, t = { s with toBlock := s.toBlock.setPg g } := by
  obtain ⟨-, hx⟩ | ⟨e, -, -, hx⟩ | ⟨-, -, hx⟩ := pulseStep_cases s
  · rw [hx] at h; cases h; exact ⟨s.pg, rfl⟩
  · rw [hx] at h; cases h; exact ⟨_, rfl⟩
  · rw [hx] at h; cases h

theorem loadedConfig_eq_getD (old : Config) (load : Option Config) : loadedConfig old load = load.getD old := by
  cases load <;> rfl

theorem resetStep_of_admitted {s : State} {load : Option Config} (hc : admitted (load.getD s.cfg) = true) :
    resetStep load s =
      .next { s with toBlock := s.toBlock.resetTo (load.getD s.cfg), cfg := load.getD s.cfg } := by
  rw [resetStep, loadedConfig_eq_getD, if_pos hc]

theorem resetStep_next {s t : State} {load : Option Config} (h : resetStep load s = .next t) :
    t = { s with toBlock := s.toBlock.resetTo (load.getD s.cfg), cfg := load.getD s.cfg } := by
  rw [resetStep, loadedConfig_eq_getD] at h
  split at h
  · cases h; rfl
  · cases h

theorem powerOnStep_of_admitted {s : State} {c : Config} {t0 : Tick} (hc : admitted c = true) :
    powerOnStep c t0 s = .next { s with toBlock := s.toBlock.powerOnTo c t0, cfg := c } := by
  rw [powerOnStep, if_pos hc]

theorem powerOnStep_next {s t : State} {c : Config} {t0 : Tick} (h : powerOnStep c t0 s = .next t) :
    t = { s with toBlock := s.toBlock.powerOnTo c t0, cfg := c } := by
  rw [powerOnStep] at h
  split at h
  · cases h; rfl
  · cases h

/-! ### Which command a word pair is under the configuration's widths -/

/-- A narrower width makes a command illegal or cuts SEND's repeat count; it changes no other command. -/
theorem operandsAt_eq_some {c : Config} {i j : Instr} (h : operandsAt c j = some i) :
    j = i ∨ ∃ idx onoff rep, i = .send idx onoff rep := by
  cases j with
  | tick => cases h; exact .inl rfl
  | arm ticks => cases h; exact .inl rfl
  | passed => cases h; exact .inl rfl
  | passed1 => cases h; exact .inl rfl
  | resolve idx onoff =>
    simp only [operandsAt] at h
    split at h
    · cases h; exact .inl rfl
    · cases h
  | tx pid rep value =>
    simp only [operandsAt] at h
    split at h
    · cases h; exact .inl rfl
    · cases h
  | send idx onoff rep =>
    simp only [operandsAt] at h
    split at h
    · cases h; exact .inr ⟨_, _, _, rfl⟩
    · cases h

theorem decode_of_decodeAt {c : Config} {cmd arg : Word} {i : Instr} (h : decodeAt c cmd arg = some i)
    (hsend : ∀ idx onoff rep, i ≠ .send idx onoff rep) : decode cmd arg = some i := by
  obtain ⟨j, hd, hj⟩ := decodeAt_eq_some h
  obtain rfl | ⟨idx, onoff, rep, hi⟩ := operandsAt_eq_some hj
  · exact hd
  · exact absurd hi (hsend idx onoff rep)

/-! ### The writers of the WaitValue -/

theorem execTx_wv {pid : BitVec 8} {rep : BitVec 16} {v : BitVec 32} {s t : State}
    (h : execTx pid rep v s = .next t) : t.wv = s.wv := by
  obtain ⟨-, hx⟩ | ⟨-, -, hx⟩ | ⟨e, -, -, -, hx⟩ | ⟨e, -, -, -, hx⟩ := execTx_cases pid rep v s <;>
    (rw [hx] at h; cases h; rfl)

theorem execSend_wv {idx : BitVec 16} {onoff : BitVec 8} {rep : BitVec 16} {s t : State}
    (h : execSend idx onoff rep s = .next t) : t.wv = s.wv := by
  obtain ⟨-, hx⟩ | ⟨-, -, hx⟩ | ⟨pid, v, e, -, -, -, -, hx⟩ | ⟨pid, v, -, -, -, -, hx⟩ :=
    execSend_cases idx onoff rep s
  · rw [hx] at h; cases h; rfl
  · rw [hx] at h; cases h; rfl
  · rw [hx] at h; cases h; rfl
  · rw [hx] at h; cases h

/-- PASSED1 consumes a deadline that has passed and keeps any other (40_timer.md R86). -/
theorem execPassed1_wv {s t : State} (h : execPassed1 s = .next t) :
    t.wv = if hasPassed s.wv s.tick then .always else s.wv := by
  cases h; rfl

/-- The commands that can change the WaitValue, and what they write. -/
theorem exec_changes_wv {i : Instr} {s t : State} (h : exec i s = .next t) (hwv : t.wv ≠ s.wv) :
    (∃ ticks, i = .arm ticks ∧ t.wv = ⟨s.tick, s.tick + ticks⟩) ∨
      (i = .passed1 ∧ hasPassed s.wv s.tick = true ∧ t.wv = ⟨0, 0⟩) := by
  cases i with
  | tick => cases h; exact absurd rfl hwv
  | arm ticks => cases h; exact .inl ⟨ticks, rfl, rfl⟩
  | passed => cases h; exact absurd rfl hwv
  | passed1 =>
    have hw := execPassed1_wv h
    by_cases hp : hasPassed s.wv s.tick = true
    · rw [if_pos hp] at hw; exact .inr ⟨rfl, hp, hw⟩
    · rw [if_neg hp] at hw; exact absurd hw hwv
  | resolve idx onoff => cases h; exact absurd rfl hwv
  | tx pid rep value => exact absurd (execTx_wv h) hwv
  | send idx onoff rep => exact absurd (execSend_wv h) hwv

/-- The moves that can change the WaitValue, and what they write. -/
theorem moveStep_changes_wv {m : Move} {s t : State} (h : moveStep m s = .next t) (hwv : t.wv ≠ s.wv) :
    (∃ cmd arg ticks, m = .command cmd arg ∧ decode cmd arg = some (.arm ticks) ∧
        t.wv = ⟨s.tick, s.tick + ticks⟩) ∨
      (∃ cmd arg, m = .command cmd arg ∧ decode cmd arg = some .passed1 ∧ hasPassed s.wv s.tick = true ∧
        t.wv = ⟨0, 0⟩) ∨
      (m.isReset = true ∧ t.wv = ⟨0, 0⟩) := by
  cases m with
  | command cmd arg =>
    obtain ⟨-, rfl⟩ | ⟨i, hd, hx⟩ := commandStep_next h
    · exact absurd rfl hwv
    · obtain ⟨ticks, rfl, hw⟩ | ⟨rfl, hp, hw⟩ := exec_changes_wv hx hwv
      · exact .inl ⟨cmd, arg, ticks, rfl, decode_of_decodeAt hd nofun, hw⟩
      · exact .inr (.inl ⟨cmd, arg, rfl, decode_of_decodeAt hd nofun, hp, hw⟩)
  | tick => cases h; exact absurd rfl hwv
  | pulse => obtain ⟨g, rfl⟩ := pulseStep_next h; exact absurd rfl hwv
  | reset load => cases resetStep_next h; exact .inr (.inr ⟨rfl, rfl⟩)
  | powerOn c t0 => cases powerOnStep_next h; exact .inr (.inr ⟨rfl, rfl⟩)

theorem unscheduledStep_wv {s t : State} (h : unscheduledStep s = .next t) : t.wv = s.wv := by
  obtain ⟨-, hx⟩ | ⟨-, -, hx⟩ | ⟨k, -, -, hx⟩ := unscheduledStep_cases s
  · rw [hx] at h; cases h; rfl
  · rw [hx] at h; obtain ⟨g, rfl⟩ := pulseStep_next h; rfl
  · rw [hx] at h; cases h; rfl

/-- Settles O20: an agent's step with no move scheduled keeps the WaitValue, and among the moves only the three write it. -/
theorem onlyThreeWritersOfTheWaitValue : Obligations.OnlyThreeWritersOfTheWaitValue := by
  intro s t h hwv
  obtain ⟨-, ⟨-, hu⟩ | ⟨m, rest, hm, hx⟩⟩ := step_next h
  · exact absurd (unscheduledStep_wv hu) hwv
  · exact ⟨m, rest, hm, moveStep_changes_wv (s := { s with moves := rest }) hx hwv⟩

/-! ### The writers of the counter -/

theorem tick_add_one (t : Tick) : t + 1 = BitVec.ofNat 16 ((t.toNat + 1) % 65536) := by
  apply BitVec.eq_of_toNat_eq
  simp [BitVec.toNat_add]

/-- A transaction on the command port never writes the counter, whether its words are legal or not. -/
theorem commandStep_tick {cmd arg : Word} {s t : State} (h : commandStep cmd arg s = .next t) :
    t.tick = s.tick := by
  obtain ⟨-, rfl⟩ | ⟨i, -, hx⟩ := commandStep_next h
  · rfl
  · obtain ⟨-, htick, -⟩ := exec_keeps hx
    exact htick

/-- Of the moves other than the counter's own, only a power-on writes the counter. -/
theorem moveStep_tick {m : Move} {s t : State} (h : moveStep m s = .next t) (hm : m ≠ .tick) :
    t.tick = s.tick ∨ ∃ c, m = .powerOn c t.tick := by
  cases m with
  | command cmd arg => exact .inl (commandStep_tick h)
  | tick => exact absurd rfl hm
  | pulse => obtain ⟨g, rfl⟩ := pulseStep_next h; exact .inl rfl
  | reset load => cases resetStep_next h; exact .inl rfl
  | powerOn c t0 => cases powerOnStep_next h; exact .inr ⟨c, rfl⟩

/-- Settles O21: the counter's step is an addition modulo 65536, and the other moves go by `moveStep_tick`. -/
theorem onlyTheCounterAgentMovesTheTick : Obligations.OnlyTheCounterAgentMovesTheTick := by
  constructor
  · intro s rest hc hm
    rw [step_of_moves hc hm, ← tick_add_one]
    exact tickStep_eq _
  · intro s t m rest hm h hne
    exact moveStep_tick (s := { s with moves := rest }) (step_next_of_moves hm h) hne

/-! ### The values of a reset -/

/-- Every tick lies outside the empty interval of ALWAYS (10_state.md R25). -/
@[simp] theorem hasPassed_always (t : Tick) : hasPassed .always t = true := by
  simp [hasPassed, WaitValue.always, BitVec.le_def]

/-- The outputs of an IDLE block whose WaitValue is ALWAYS (R31, R32, R33). -/
theorem Block.outputs_of_idle_always {b : Block} (hwv : b.wv = .always) (hpg : b.pg.phase = .idle) :
    b.rfOut = .low ∧ b.busy = false ∧ b.due = true := by
  refine ⟨?_, b.busy_eq_false.mpr hpg, ?_⟩
  · rw [Block.rfOut, hpg]; rfl
  · rw [Block.due, hwv, hasPassed_always]

/-- Settles O28: both moves write the block's reset values, and the outputs follow from them. -/
theorem resetWritesItsValues : Obligations.ResetWritesItsValues := by
  constructor
  · intro s rest load hc hm hl
    obtain ⟨hrf, hbusy, hdue⟩ :=
      Block.outputs_of_idle_always (b := s.toBlock.resetTo (load.getD s.cfg)) rfl rfl
    exact ⟨_, (step_of_moves hc hm).trans (resetStep_of_admitted hl), rfl, rfl, rfl, hrf, hbusy, hdue,
      rfl, rfl, rfl⟩
  · intro s rest c t0 hc hm hl
    obtain ⟨hrf, hbusy, hdue⟩ := Block.outputs_of_idle_always (b := s.toBlock.powerOnTo c t0) rfl rfl
    exact ⟨_, (step_of_moves hc hm).trans (powerOnStep_of_admitted hl), rfl, rfl, rfl, hrf, hbusy, hdue,
      rfl, rfl, rfl⟩

end Sys2Proof.Machine
end

section
/-! Which steps change the configuration (spec 20_memory.md R43, R57, 70_reset_and_hazards.md R182). -/

namespace Sys2Proof.Machine

theorem commandStep_cfg {cmd arg : Word} {s t : State} (h : commandStep cmd arg s = .next t) :
    t.cfg = s.cfg := by
  obtain ⟨-, rfl⟩ | ⟨i, -, hx⟩ := commandStep_next h
  · rfl
  · exact (exec_keeps hx).1

/-- The moves that can change the configuration, and what they load. -/
theorem moveStep_changes_cfg {m : Move} {s t : State} (h : moveStep m s = .next t) (hcfg : t.cfg ≠ s.cfg) :
    (∃ c, m = .reset (some c) ∧ t.cfg = c) ∨ ∃ c t0, m = .powerOn c t0 ∧ t.cfg = c := by
  cases m with
  | command cmd arg => exact absurd (commandStep_cfg h) hcfg
  | tick => cases h; exact absurd rfl hcfg
  | pulse => obtain ⟨g, rfl⟩ := pulseStep_next h; exact absurd rfl hcfg
  | reset load =>
    cases resetStep_next h
    cases load with
    | none => exact absurd rfl hcfg
    | some c => exact .inl ⟨c, rfl, rfl⟩
  | powerOn c t0 => cases powerOnStep_next h; exact .inr ⟨c, t0, rfl, rfl⟩

theorem unscheduledStep_cfg {s t : State} (h : unscheduledStep s = .next t) : t.cfg = s.cfg := by
  obtain ⟨-, hx⟩ | ⟨-, -, hx⟩ | ⟨k, -, -, hx⟩ := unscheduledStep_cases s
  · rw [hx] at h; cases h; rfl
  · rw [hx] at h; obtain ⟨g, rfl⟩ := pulseStep_next h; rfl
  · rw [hx] at h; cases h; rfl

/-- Settles O22: commands keep the configuration, as does an agent's step with no move scheduled, and among the moves only
a reset with a load and a power-on change it. -/
theorem tablesAreImmutable : Obligations.TablesAreImmutable := by
  constructor
  · intro i s t h
    exact (exec_keeps h).1
  · intro s t h hcfg
    obtain ⟨-, ⟨-, hu⟩ | ⟨m, rest, hm, hx⟩⟩ := step_next h
    · exact absurd (unscheduledStep_cfg hu) hcfg
    · exact ⟨m, rest, hm, moveStep_changes_cfg (s := { s with moves := rest }) hx hcfg⟩

end Sys2Proof.Machine
end

section
/-! Which words the decoder takes (spec 30_encoding.md R65, R66): a row of the opcode map is an opcode and a run of reserved
bits under it, and the decoder answers the command of the row that the word selects. -/

namespace Sys2Proof

/-! ### The opcode field -/

theorem opField_toNat (cmd : Word) : (opField cmd).toNat = cmd.toNat / 2 ^ 28 := by
  rw [opField, BitVec.extractLsb'_toNat, Nat.shiftRight_eq_div_pow]
  omega

theorem opField_and (v w : Word) : opField (v &&& w) = opField v &&& opField w :=
  BitVec.extractLsb'_and

/-! ### A row by its opcode and its reserved bits -/

/-- The row of the words with opcode `op` whose bits 27 down to `k` are 0. -/
def OpcodeRow.ofOpcode (op : BitVec 4) (k : Nat) : OpcodeRow :=
  ⟨op.setWidth 32 <<< 28, BitVec.allOnes 32 <<< k⟩

theorem opcodeMap_eq_ofOpcode :
    opcodeMap = [.ofOpcode 1 0, .ofOpcode 2 16, .ofOpcode 3 0, .ofOpcode 4 0, .ofOpcode 5 24, .ofOpcode 6 24,
      .ofOpcode 7 24] := by
  decide

/-- A mask of ones above bit `k` rounds a word down to a multiple of `2 ^ k`. -/
theorem and_allOnes_shiftLeft_toNat (cmd : Word) (k : Nat) :
    (cmd &&& BitVec.allOnes 32 <<< k).toNat = cmd.toNat / 2 ^ k * 2 ^ k := by
  have hle : cmd.toNat / 2 ^ k * 2 ^ k ≤ cmd.toNat := Nat.div_mul_le_self ..
  rw [← BitVec.shiftLeft_ushiftRight, BitVec.toNat_shiftLeft, BitVec.toNat_ushiftRight, Nat.shiftRight_eq_div_pow,
    Nat.shiftLeft_eq, Nat.mod_eq_of_lt (by omega)]

/-- A number rounded down to a multiple of `a` is a multiple `m` of `a * b` exactly when its quotient by `a * b` is `m` and
the digits between the two are 0. -/
theorem div_mul_eq_mul_iff {a b : Nat} (ha : 0 < a) (hb : 0 < b) (n m : Nat) :
    n / a * a = m * (a * b) ↔ n / (a * b) = m ∧ n / a % b = 0 := by
  rw [← Nat.div_div_eq_div_mul, show m * (a * b) = m * b * a by ring, Nat.mul_left_inj ha.ne']
  have hdiv := Nat.div_add_mod (n / a) b
  constructor
  · intro h
    rw [h]
    exact ⟨Nat.mul_div_cancel m hb, Nat.mul_mod_left m b⟩
  · rintro ⟨rfl, hmod⟩
    rw [hmod, Nat.add_zero, Nat.mul_comm] at hdiv
    exact hdiv.symm

/-- R65's match and mask, as numbers: the opcode is the row's and the bits from `k` up to it are 0. -/
theorem OpcodeRow.ofOpcode_selects_iff_numbers (op : BitVec 4) {k : Nat} (hk : k ≤ 28) (cmd : Word) :
    (OpcodeRow.ofOpcode op k).selects cmd = true ↔
      cmd.toNat / 2 ^ 28 = op.toNat ∧ cmd.toNat / 2 ^ k % 2 ^ (28 - k) = 0 := by
  have hop : (op.setWidth 32 <<< 28).toNat = op.toNat * 2 ^ 28 := by
    rw [BitVec.toNat_shiftLeft, BitVec.toNat_setWidth, Nat.shiftLeft_eq]
    omega
  have hpow : 2 ^ 28 = 2 ^ k * 2 ^ (28 - k) := by rw [← pow_add, Nat.add_sub_cancel' hk]
  rw [selects, decide_eq_true_eq, ofOpcode, ← BitVec.toNat_inj, and_allOnes_shiftLeft_toNat, hop, hpow]
  exact div_mul_eq_mul_iff (Nat.two_pow_pos k) (Nat.two_pow_pos _) _ _

/-- The same in the fields that the decoder reads. -/
theorem OpcodeRow.ofOpcode_selects_iff_fields (op : BitVec 4) {k : Nat} (hk : k ≤ 28) (cmd : Word) :
    (OpcodeRow.ofOpcode op k).selects cmd = true ↔ opField cmd = op ∧ cmd.extractLsb' k (28 - k) = 0#(28 - k) := by
  rw [ofOpcode_selects_iff_numbers op hk, ← BitVec.toNat_inj, ← BitVec.toNat_inj, opField_toNat,
    BitVec.extractLsb'_toNat, Nat.shiftRight_eq_div_pow, BitVec.toNat_zero]

/-! ### The decoder and the map -/

/-- A selected word has the row's opcode, because every mask of the map covers the opcode field. -/
theorem opField_of_selects {cmd : Word} {r : OpcodeRow} (hr : r ∈ opcodeMap) (h : r.selects cmd = true) :
    opField cmd = opField r.pattern := by
  have hmask : ∀ r ∈ opcodeMap, opField r.mask = BitVec.allOnes 4 := by decide
  rw [OpcodeRow.selects, decide_eq_true_eq] at h
  rw [← h, opField_and, hmask r hr, BitVec.and_allOnes]

/-- One opcode's branch of the decoder is one row of the map: with that opcode no later row is selected, and without it the
search goes on as the decoder does. -/
theorem map_rowOf_opcode_branch {cmd : Word} {op : BitVec 4} {k : Nat} {i : Instr} {rest : Option Instr}
    {l : List OpcodeRow} (hk : k ≤ 28) (hi : rowOf i = .ofOpcode op k)
    (hl : ∀ r ∈ l, r ∈ opcodeMap ∧ opField r.pattern ≠ op)
    (hrest : rest.map rowOf = l.find? (·.selects cmd)) :
    (if opField cmd = op then if cmd.extractLsb' k (28 - k) ≠ 0#(28 - k) then none else some i else rest).map rowOf =
      (OpcodeRow.ofOpcode op k :: l).find? (·.selects cmd) := by
  have hsel := OpcodeRow.ofOpcode_selects_iff_fields op hk cmd
  rw [List.find?_cons]
  by_cases hop : opField cmd = op
  · by_cases hres : cmd.extractLsb' k (28 - k) = 0#(28 - k)
    · rw [if_pos hop, if_neg (not_not_intro hres), hsel.mpr ⟨hop, hres⟩, Option.map_some, hi]
    · have hnone : l.find? (·.selects cmd) = none :=
        List.find?_eq_none.mpr fun r hr hrs => (hl r hr).2 ((opField_of_selects (hl r hr).1 hrs).symm.trans hop)
      rw [if_pos hop, if_pos hres, Bool.eq_false_iff.mpr fun h => hres (hsel.mp h).2, hnone, Option.map_none]
  · rw [if_neg hop, Bool.eq_false_iff.mpr fun h => hop (hsel.mp h).1, hrest]

/-- The decoder answers a command of the row that the map finds: its seven branches are the seven rows, in order. -/
theorem decode_map_rowOf (cmd arg : Word) :
    (decode cmd arg).map rowOf = opcodeMap.find? (·.selects cmd) := by
  rw [opcodeMap_eq_ofOpcode]
  iterate 7 refine map_rowOf_opcode_branch (by decide) rfl (by decide) ?_
  rfl

/-- A word is illegal exactly when it selects no row (R66 in the terms of R65). -/
theorem decode_eq_none_iff (cmd arg : Word) :
    decode cmd arg = none ↔ ∀ r ∈ opcodeMap, r.selects cmd = false := by
  rw [← Option.map_eq_none_iff (f := rowOf), decode_map_rowOf, List.find?_eq_none]
  simp only [Bool.not_eq_true]

/-- The same by R66's list: an opcode without a row, or a reserved bit set under an opcode that has one. -/
theorem decode_eq_none_iff_numbers (cmd arg : Word) : decode cmd arg = none ↔
    (cmd.toNat / 2 ^ 28 = 0 ∨ 8 ≤ cmd.toNat / 2 ^ 28 ∨
      ((cmd.toNat / 2 ^ 28 = 1 ∨ cmd.toNat / 2 ^ 28 = 3 ∨ cmd.toNat / 2 ^ 28 = 4) ∧ cmd.toNat % 2 ^ 28 ≠ 0) ∨
      (cmd.toNat / 2 ^ 28 = 2 ∧ cmd.toNat / 2 ^ 16 % 2 ^ 12 ≠ 0) ∨
      ((cmd.toNat / 2 ^ 28 = 5 ∨ cmd.toNat / 2 ^ 28 = 6 ∨ cmd.toNat / 2 ^ 28 = 7) ∧
        cmd.toNat / 2 ^ 24 % 2 ^ 4 ≠ 0)) := by
  simp only [decode_eq_none_iff, opcodeMap_eq_ofOpcode, List.forall_mem_cons, ← Bool.not_eq_true,
    OpcodeRow.ofOpcode_selects_iff_numbers, Nat.reduceLeDiff, Nat.zero_le, List.not_mem_nil,
    false_imp_iff, implies_true, and_true, BitVec.reduceToNat]
  omega

/-- The seven opcodes differ, so a word selects at most one row. -/
theorem selects_unique {cmd : Word} {r q : OpcodeRow} (hr : r ∈ opcodeMap) (hq : q ∈ opcodeMap)
    (hrs : r.selects cmd = true) (hqs : q.selects cmd = true) : r = q := by
  have hinj : ∀ r ∈ opcodeMap, ∀ q ∈ opcodeMap, opField r.pattern = opField q.pattern → r = q := by decide
  exact hinj r hr q hq ((opField_of_selects hr hrs).symm.trans (opField_of_selects hq hqs))

/-- A decoded word selects its command's row: that row is the one the map finds. -/
theorem rowOf_selects_of_decode {cmd arg : Word} {i : Instr} (h : decode cmd arg = some i) :
    (rowOf i).selects cmd = true := by
  have hfind : opcodeMap.find? (·.selects cmd) = some (rowOf i) := by rw [← decode_map_rowOf cmd arg, h]; rfl
  exact List.find?_some (p := (OpcodeRow.selects · cmd)) hfind

/-- Settles O11: the decoder answers the command of the row that the map finds, which depends on `cmd` alone, and no word
selects two rows. -/
theorem opcodeMapSelects : Obligations.OpcodeMapSelects := by
  refine ⟨rfl, fun _ => rfl, fun _ _ => rfl, fun _ _ _ => rfl, fun _ _ _ => rfl, fun _ _ _ => rowOf_selects_of_decode,
    fun cmd arg => (decode_eq_none_iff cmd arg).mp, fun _ _ _ => selects_unique, fun cmd a b => ?_⟩
  rw [decode_map_rowOf, decode_map_rowOf]

end Sys2Proof

namespace Sys2Proof.Machine

/-! ### An illegal word -/

theorem commandStep_of_illegal {s : State} {cmd arg : Word} (h : decode cmd arg = none) :
    commandStep cmd arg s = .next { s with toBlock := s.toBlock.raiseFault .illegalCommand } := by
  rw [commandStep, decodeAt_of_none h]
  rfl

/-- Settles O10: the illegal words are those that select no row, and the transaction of one is `Block.raiseFault`. -/
theorem illegalWordsFault : Obligations.IllegalWordsFault := by
  refine ⟨decode_eq_none_iff_numbers, fun s cmd arg rest hc hm hd => ?_⟩
  exact (step_of_moves hc hm).trans (commandStep_of_illegal hd)

end Sys2Proof.Machine
end

section
/-! The WrapTimer commands in every state (spec 40_timer.md R80, R82 to R86): the words they decode from, the whole next
state each answers, and from these the numbers in its response. -/

namespace Sys2Proof

/-! ### The words of the commands -/

theorem extractLsb'_setWidth_eq_zero {w k : Nat} (h : w ≤ k) (n v : Nat) (x : BitVec w) :
    (x.setWidth v).extractLsb' k n = 0#n := by
  ext i hi
  simp [BitVec.getLsbD_of_ge x (k + i) (by omega)]

theorem extractLsb'_setWidth_self {w v : Nat} (h : w ≤ v) (x : BitVec w) : (x.setWidth v).extractLsb' 0 w = x := by
  rw [BitVec.extractLsb'_setWidth_of_le (by omega), BitVec.extractLsb'_eq_self]

/-- ARM's operand fills the low half of its word and leaves the opcode and the reserved bits alone (R84). -/
theorem decode_arm (ticks : BitVec 16) (arg : Word) :
    decode (0x20000000#32 ||| ticks.setWidth 32) arg = some (.arm ticks) := by
  have hop : opField (0x20000000#32 ||| ticks.setWidth 32) = 2#4 := by
    rw [opField, BitVec.extractLsb'_or, extractLsb'_setWidth_eq_zero (by decide)]
    rfl
  have hres : (0x20000000#32 ||| ticks.setWidth 32).extractLsb' 16 12 = 0#12 := by
    rw [BitVec.extractLsb'_or, extractLsb'_setWidth_eq_zero (by decide)]
    rfl
  have hlow : lowHalfField (0x20000000#32 ||| ticks.setWidth 32) = ticks := by
    rw [lowHalfField, BitVec.extractLsb'_or, extractLsb'_setWidth_self (by decide)]
    exact BitVec.zero_or
  simp [decode, hop, hres, hlow]

end Sys2Proof

namespace Sys2Proof.Machine

/-! ### The whole next state of each command -/

theorem exec_tick (s : State) :
    exec .tick s = .next { s with toBlock := s.toBlock.respond ⟨zext32 s.tick, 0, false⟩ } := rfl

theorem exec_arm (ticks : BitVec 16) (s : State) :
    exec (.arm ticks) s = .next
      { s with
        toBlock := (s.toBlock.setWv (deadlineAfter s.tick ticks)).respond
          ⟨packWaitValue (deadlineAfter s.tick ticks), 0, false⟩ } := rfl

theorem exec_passed (s : State) :
    exec .passed s = .next { s with toBlock := s.toBlock.respond ⟨0, 0, s.due⟩ } := rfl

theorem exec_passed1 (s : State) :
    exec .passed1 s = .next
      { s with
        toBlock := (s.toBlock.setWv (if hasPassed s.wv s.tick then .always else s.wv)).respond
          ⟨0, 0, hasPassed s.wv s.tick⟩ } := rfl

/-! ### The operands and the response as numbers -/

theorem zext32_eq_ofNat (t : Tick) : zext32 t = BitVec.ofNat 32 t.toNat :=
  (BitVec.ofNat_toNat 32 t).symm

theorem deadlineAfter_eq_ofNat (now ticks : Tick) :
    deadlineAfter now ticks = ⟨now, BitVec.ofNat 16 (now.toNat + ticks.toNat)⟩ := by
  rw [deadlineAfter, BitVec.add_def]

/-- `{end, start}` (R64): the start is below 65536, so the two halves do not overlap and the concatenation is a sum. -/
theorem packWaitValue_eq_ofNat (wv : WaitValue) :
    packWaitValue wv = BitVec.ofNat 32 (wv.endTick.toNat * 65536 + wv.startTick.toNat) := by
  have hend := wv.endTick.isLt
  have hstart := wv.startTick.isLt
  apply BitVec.eq_of_toNat_eq
  rw [packWaitValue, BitVec.toNat_append, ← Nat.shiftLeft_add_eq_or_of_lt hstart, Nat.shiftLeft_eq,
    BitVec.toNat_ofNat]
  omega

/-- R80 on numbers: the second branch is the interval that wraps past 65535. -/
theorem hasPassed_eq_decide (wv : WaitValue) (cur : Tick) : hasPassed wv cur = decide (
    if wv.startTick.toNat ≤ wv.endTick.toNat then
      wv.endTick.toNat ≤ cur.toNat ∨ cur.toNat < wv.startTick.toNat
    else cur.toNat < wv.startTick.toNat ∧ wv.endTick.toNat ≤ cur.toNat) := by
  rw [Bool.eq_iff_iff, decide_eq_true_eq, hasPassed]
  by_cases hle : wv.startTick ≤ wv.endTick
  · rw [if_pos hle, if_pos (BitVec.le_def.mp hle), Bool.or_eq_true, decide_eq_true_eq, decide_eq_true_eq,
      BitVec.le_def, BitVec.lt_def]
  · rw [if_neg hle, if_neg (mt BitVec.le_def.mpr hle), Bool.and_eq_true, decide_eq_true_eq, decide_eq_true_eq,
      BitVec.le_def, BitVec.lt_def]

/-! ### What each command answers -/

/-- Settles O1: TICK's answer is the zero-extended counter. -/
theorem tickAnswersTheCounter : Obligations.TickAnswersTheCounter := by
  refine ⟨fun _ => rfl, fun s => ?_⟩
  rw [exec_tick, zext32_eq_ofNat]
  rfl

/-- Settles O2: ARM writes `deadlineAfter` and answers it packed. -/
theorem armWritesTheDeadline : Obligations.ArmWritesTheDeadline := by
  refine ⟨decode_arm, fun s ticks => ?_⟩
  rw [exec_arm, packWaitValue_eq_ofNat, deadlineAfter_eq_ofNat, BitVec.toNat_ofNat]
  rfl

/-- Settles O3: PASSED's flag is the `due` output, which is `hasPassed` of the register and the counter. -/
theorem passedTestsTheDeadline : Obligations.PassedTestsTheDeadline := by
  refine ⟨fun _ => rfl, fun s => ⟨?_, exec_passed s⟩⟩
  rw [exec_passed, Block.due, hasPassed_eq_decide]
  rfl

/-- Settles O4: what PASSED1 writes and answers turns on `hasPassed` alone. -/
theorem passedOnceConsumesTheDeadline : Obligations.PassedOnceConsumesTheDeadline := by
  refine ⟨fun _ => rfl, fun s => ⟨fun hp => ?_, fun hp => ?_⟩⟩
  · rw [exec_passed1, hp]
    rfl
  · rw [exec_passed1, hp]
    rfl

end Sys2Proof.Machine
end

section
/-! RESOLVE in every state (spec 41_registry.md R101, R102): where its operands stand in the command word, and the whole
next state for what the Switch table holds. -/

namespace Sys2Proof

/-! ### The operands of RESOLVE and SEND in a command word -/

/-- The bits that a shift by `m` fills are 0. -/
theorem extractLsb'_shiftLeft_eq_zero {v k n m : Nat} (h : k + n ≤ m) (x : BitVec v) :
    (x <<< m).extractLsb' k n = 0#n := by
  ext i hi
  simp [show k + i < m by omega]

/-- Above them stand the bits of the word, `m` places higher. -/
theorem extractLsb'_shiftLeft_of_le {v k n m : Nat} (hm : m ≤ k) (hv : k + n ≤ v) (x : BitVec v) :
    (x <<< m).extractLsb' k n = x.extractLsb' (k - m) n := by
  ext i hi
  have hsub : k + i - m = k - m + i := by omega
  simp [show k + i < v by omega, show ¬ k + i < m by omega, hsub,
    BitVec.getLsbD_eq_getElem (show k - m + i < v by omega)]

/-- `onoff` and `idx` in the fields that R61 gives them, over the word `base`. -/
def withSwitchOperands (base : Word) (idx : BitVec 16) (onoff : BitVec 8) : Word :=
  base ||| (onoff.setWidth 32 <<< 16) ||| idx.setWidth 32

theorem encodeCmd_resolve (idx : BitVec 16) (onoff : BitVec 8) :
    encodeCmd (.resolve idx onoff) = withSwitchOperands 0x50000000#32 idx onoff := rfl

section
variable (base : Word) (idx : BitVec 16) (onoff : BitVec 8)

/-- The operands leave the opcode and the reserved bits alone. -/
theorem withSwitchOperands_extract_high {k n : Nat} (hk : 24 ≤ k) (hn : k + n ≤ 32) :
    (withSwitchOperands base idx onoff).extractLsb' k n = base.extractLsb' k n := by
  rw [withSwitchOperands, BitVec.extractLsb'_or, BitVec.extractLsb'_or, extractLsb'_shiftLeft_of_le (by omega) hn,
    extractLsb'_setWidth_eq_zero (by omega), extractLsb'_setWidth_eq_zero (by omega), BitVec.or_zero, BitVec.or_zero]

theorem onoffField_withSwitchOperands :
    onoffField (withSwitchOperands base idx onoff) = onoffField base ||| onoff := by
  rw [onoffField, onoffField, withSwitchOperands, BitVec.extractLsb'_or, BitVec.extractLsb'_or,
    extractLsb'_shiftLeft_of_le (by decide) (by decide), extractLsb'_setWidth_self (by decide),
    extractLsb'_setWidth_eq_zero (by decide), BitVec.or_zero]

theorem lowHalfField_withSwitchOperands :
    lowHalfField (withSwitchOperands base idx onoff) = lowHalfField base ||| idx := by
  rw [lowHalfField, lowHalfField, withSwitchOperands, BitVec.extractLsb'_or, BitVec.extractLsb'_or,
    extractLsb'_shiftLeft_eq_zero (by decide), extractLsb'_setWidth_self (by decide), BitVec.or_zero]

end

/-- R102's encoding: the opcode and two operands that meet no other field. -/
theorem decode_resolve (idx : BitVec 16) (onoff : BitVec 8) (arg : Word) :
    decode (encodeCmd (.resolve idx onoff)) arg = some (.resolve idx onoff) := by
  rw [encodeCmd_resolve]
  have hop : opField (withSwitchOperands 0x50000000#32 idx onoff) = 5#4 :=
    withSwitchOperands_extract_high _ _ _ (by decide) (by decide)
  have hres : (withSwitchOperands 0x50000000#32 idx onoff).extractLsb' 24 4 = 0#4 :=
    withSwitchOperands_extract_high _ _ _ (by decide) (by decide)
  have hidx : lowHalfField (withSwitchOperands 0x50000000#32 idx onoff) = idx :=
    (lowHalfField_withSwitchOperands _ _ _).trans BitVec.zero_or
  have honoff : onoffField (withSwitchOperands 0x50000000#32 idx onoff) = onoff :=
    (onoffField_withSwitchOperands _ _ _).trans BitVec.zero_or
  simp [decode, hop, hres, hidx, honoff]

end Sys2Proof

namespace Sys2Proof.Machine

/-! ### The whole next state -/

theorem exec_resolve (idx : BitVec 16) (onoff : BitVec 8) (s : State) :
    exec (.resolve idx onoff) s = .next
      { s with toBlock := s.toBlock.respond (resolveResponse (resolve s.cfg idx onoff)) } := rfl

theorem exec_resolve_of_bad {s : State} {idx : BitVec 16} {onoff : BitVec 8}
    (h : s.cfg.sw.length ≤ idx.toNat ∨ 1 < onoff.toNat) :
    exec (.resolve idx onoff) s = .next { s with toBlock := s.toBlock.respond ⟨0, 0, false⟩ } := by
  rw [exec_resolve, resolve_of_bad h]
  rfl

theorem exec_resolve_of_switch {s : State} {idx : BitVec 16} {onoff : BitVec 8} {x : Switch}
    (hx : s.cfg.sw[idx.toNat]? = some x) (ho : onoff.toNat ≤ 1) :
    exec (.resolve idx onoff) s = .next
      { s with toBlock := s.toBlock.respond ⟨switchCommand x onoff, x.protocolId, true⟩ } := by
  rw [exec_resolve, resolve_of_switch hx ho]
  rfl

/-- Settles O5: RESOLVE answers what `resolve` finds; of a switch in the table that is one pattern for each legal
`onoff`. -/
theorem resolveLooksUpTheSwitch : Obligations.ResolveLooksUpTheSwitch := by
  refine ⟨decode_resolve, fun s idx onoff => ⟨exec_resolve_of_bad, fun x hx => ⟨?_, ?_⟩⟩⟩
  · rintro rfl
    exact exec_resolve_of_switch hx (by decide)
  · rintro rfl
    exact exec_resolve_of_switch hx (by decide)

end Sys2Proof.Machine
end

section
/-! The generator's positions and the waveform function (spec 42_pulse.md R121 to R127): the waveform segment by segment, the
equations of the positions, and the pulse units that a position still has to emit, which `succ` takes one segment from and
`adv` leaves alone. -/

namespace Sys2Proof.Machine

variable (e : Encoding) (tg : Bool) (v : Word)

/-! ### The waveform's segments -/

/-- Shifting right by `i` brings bit `i` to the bottom (R123). -/
theorem bitOf_eq_getLsbD (i : Nat) : bitOf v i = v.getLsbD i := by
  rw [bitOf, BitVec.getLsbD_ushiftRight, Nat.add_zero]

theorem symbolsFrom_eq_flatMap (i k : Nat) :
    symbolsFrom e v i k = (List.range' i k).flatMap fun j => symbolSegments e (bitOf v j) := by
  induction k generalizing i with
  | zero => rfl
  | succ k ih => rw [symbolsFrom, ih, List.range'_succ, List.flatMap_cons]

/-- A gap before each of `k` more frames is a gap after each of the `k` frames before the last. -/
theorem frame_append_gapFrames (k : Nat) :
    frame e v ++ gapFrames e v k =
      (List.range k).flatMap (fun _ => frame e v ++ [⟨.low, e.gap⟩]) ++ frame e v := by
  induction k with
  | zero => simp [gapFrames]
  | succ k ih =>
    calc frame e v ++ gapFrames e v (k + 1)
        = (frame e v ++ [⟨.low, e.gap⟩]) ++ (frame e v ++ gapFrames e v k) := by simp [gapFrames]
      _ = _ := by
          rw [ih, List.range_succ_eq_map, List.flatMap_cons, List.flatMap_map, List.append_assoc _ _ (frame e v)]

/-- Settles O49: the data bits are bits 0 to `bitCount - 1` of the pattern, and moving each gap behind the frame it follows
gives the list of whole frames. -/
theorem waveformIsRepeatedFrames : Obligations.WaveformIsRepeatedFrames := by
  intro e tg v rep bitSegments
  have hsymbol (i : Nat) : symbolSegments e (bitOf v i) = bitSegments i := by
    rw [bitOf_eq_getLsbD]
    cases hb : v.getLsbD i <;> simp [bitSegments, hb, symbolSegments, symbolTiming]
  refine ⟨?_, rfl, ?_⟩
  · rw [frame, symbolsFrom_eq_flatMap, ← List.range_eq_range']
    simp only [preamble, hsymbol, Nat.pos_iff_ne_zero, ite_not]
  · rw [← frame_append_gapFrames, List.append_assoc]
    rfl

/-! ### The positions -/

/-- Any fuel that covers the positions still to come does the same. -/
theorem advWithin_eq_of_le {j k : Nat} {p : Position} (hj : positionsLeft e p ≤ j) (hk : positionsLeft e p ≤ k) :
    advWithin e tg v j p = advWithin e tg v k p := by
  induction j generalizing k p with
  | zero =>
    have hidle := phase_idle_of_positionsLeft e p (by omega)
    cases k <;> simp [advWithin, hidle]
  | succ j ih =>
    by_cases hidle : p.phase = .idle
    · cases k <;> simp [advWithin, hidle]
    · have hlt := positionsLeft_succ_lt e tg p hidle
      obtain ⟨k, rfl⟩ : ∃ n, k = n + 1 := ⟨k - 1, by omega⟩
      rw [advWithin, advWithin, ih (k := k) (by omega) (by omega)]

/-- R127's own recursion for `adv`, with no bound. -/
theorem adv_eq (p : Position) :
    adv e tg v p = if p.phase = .idle ∨ 0 < dur e v p then p else adv e tg v (succ e tg p) := by
  rw [adv, advWithin_eq_of_le e tg v (Nat.le_refl _) (Nat.le_succ _), advWithin]
  by_cases hidle : p.phase = .idle
  · rw [if_pos (.inl hidle), if_pos (.inl hidle)]
  · have hlt := positionsLeft_succ_lt e tg p hidle
    rw [adv, advWithin_eq_of_le e tg v hlt.le (Nat.le_refl _)]

/-- An argument along `adv`: it holds where `adv` stops, and it carries back over each position that `adv` skips. -/
theorem adv_induction {P : Position → Prop}
    (hstop : ∀ q, q.phase = .idle ∨ 0 < dur e v q → P q)
    (hskip : ∀ q, q.phase ≠ .idle → dur e v q = 0 → P (succ e tg q) → P q) (p : Position) : P p := by
  induction h : positionsLeft e p using Nat.strong_induction_on generalizing p with
  | h n ih =>
    by_cases hp : p.phase = .idle ∨ 0 < dur e v p
    · exact hstop p hp
    · obtain ⟨hbusy, hdur⟩ := not_or.mp hp
      exact hskip p hbusy (by omega) (ih _ (h ▸ positionsLeft_succ_lt e tg p hbusy) _ rfl)

theorem sub_one_eq_ofNat {x : BitVec 16} (h : 0 < x.toNat) : x - 1 = BitVec.ofNat 16 (x.toNat - 1) := by
  bv_omega

/-- Settles O42: the equations of `dur` and `succ` are the definitions' own, with the pattern's bit read by its index, and
`adv` meets its recursion by `adv_eq`. -/
theorem positionsFollowTheSpec : Obligations.PositionsFollowTheSpec := by
  intro e tg v i left bitOn endFrame
  have hsymbol : symbolTiming e (bitOf v i) = if bitOn then e.sym1 else e.sym0 := by
    rw [bitOf_eq_getLsbD]; rfl
  refine ⟨rfl, rfl, ?_, ?_, rfl, rfl, rfl, rfl, rfl, ?_, adv_eq e tg v⟩
  · exact (congrArg Symbol.high hsymbol).trans (apply_ite _ _ _ _)
  · exact (congrArg Symbol.low hsymbol).trans (apply_ite _ _ _ _)
  · rw [succ]
    exact ite_congr rfl (fun h => by rw [sub_one_eq_ofNat h]) fun _ => rfl

/-! ### The pulse units still to come -/

@[simp] theorem units_nil : units [] = [] := rfl

@[simp] theorem units_cons (g : Segment) (l : List Segment) :
    units (g :: l) = List.replicate g.dur g.level ++ units l := rfl

theorem units_append (l m : List Segment) : units (l ++ m) = units l ++ units m := by
  induction l with
  | nil => rfl
  | cons g l ih => simp [ih]

/-- A part of the preamble that is left out has no pulse unit (R121, R126). -/
theorem units_preamble : units (preamble e) =
    List.replicate e.preambleHigh .high ++ List.replicate e.preambleLow .low := by
  have hpart (l : Level) (n : Nat) : units (if 0 < n then [⟨l, n⟩] else []) = List.replicate n l := by
    cases n <;> simp
  rw [preamble, units_append, hpart, hpart]

/-- The segments after a frame when `left` more are to follow. -/
def afterFrame (left : Nat) : List Segment :=
  if 0 < left ∨ tg = true then ⟨.low, e.gap⟩ :: waveform e tg v left else []

theorem waveform_succ (k : Nat) : waveform e tg v (k + 1) = frame e v ++ afterFrame e tg v k := by
  cases k <;> cases tg <;> simp [afterFrame, waveform, gapFrames]

/-- The segments from a position on, by the function of R121 to R125. -/
def segmentsFrom (p : Position) : List Segment :=
  match p.phase with
  | .idle => []
  | .preH => waveform e tg v (p.left.toNat + 1)
  | .preL => ⟨.low, e.preambleLow⟩ :: (symbolsFrom e v 0 e.bitCount ++ afterFrame e tg v p.left.toNat)
  | .symH =>
    ⟨.high, dur e v ⟨.symH, p.bit, p.left⟩⟩ :: ⟨.low, dur e v ⟨.symL, p.bit, p.left⟩⟩ ::
      (symbolsFrom e v (p.bit + 1) (e.bitCount - (p.bit + 1)) ++ afterFrame e tg v p.left.toNat)
  | .symL =>
    ⟨.low, dur e v ⟨.symL, p.bit, p.left⟩⟩ ::
      (symbolsFrom e v (p.bit + 1) (e.bitCount - (p.bit + 1)) ++ afterFrame e tg v p.left.toNat)
  | .gap => ⟨.low, e.gap⟩ :: waveform e tg v p.left.toNat

theorem segmentsFrom_endFrame (left : BitVec 16) :
    segmentsFrom e tg v (endFrame tg left) = afterFrame e tg v left.toNat := by
  unfold endFrame afterFrame
  split <;> rfl

/-- What follows the symbols of bits 0 to `i - 1` is the symbol of bit `i`, if the frame has one, or the frame's end. -/
theorem segmentsFrom_next_symbol (i : Nat) (left : BitVec 16) :
    segmentsFrom e tg v (if i < e.bitCount then ⟨.symH, i, left⟩ else endFrame tg left) =
      symbolsFrom e v i (e.bitCount - i) ++ afterFrame e tg v left.toNat := by
  by_cases hi : i < e.bitCount
  · rw [if_pos hi, show e.bitCount - i = e.bitCount - (i + 1) + 1 by omega]
    rfl
  · rw [if_neg hi, segmentsFrom_endFrame, show e.bitCount - i = 0 by omega]
    rfl

/-- A busy position emits its own segment, and what is left is what its successor has to emit. -/
theorem units_segmentsFrom (p : Position) (hp : p.phase ≠ .idle) :
    units (segmentsFrom e tg v p) =
      List.replicate (dur e v p) p.phase.level ++ units (segmentsFrom e tg v (succ e tg p)) := by
  obtain ⟨ph, i, left⟩ := p
  cases ph with
  | idle => exact absurd rfl hp
  | preH =>
    simp [segmentsFrom, waveform_succ, frame, units_append, units_preamble, succ, dur, Phase.level]
  | preL => rw [succ, segmentsFrom_next_symbol]; rfl
  | symH => rfl
  | symL => rw [succ, segmentsFrom_next_symbol]; rfl
  | gap =>
    rw [succ]
    by_cases hl : 0 < left.toNat
    · have hleft : (left - 1).toNat + 1 = left.toNat := by bv_omega
      rw [if_pos hl, segmentsFrom, segmentsFrom, hleft]
      rfl
    · rw [if_neg hl, segmentsFrom, Nat.eq_zero_of_not_pos hl]
      rfl

/-- The positions that `adv` skips emit nothing (R126, R127). -/
theorem units_segmentsFrom_adv (p : Position) :
    units (segmentsFrom e tg v (adv e tg v p)) = units (segmentsFrom e tg v p) := by
  induction p using adv_induction e tg v with
  | hstop q hq => rw [adv_eq, if_pos hq]
  | hskip q hbusy hdur ih =>
    rw [adv_eq, if_neg (by simp [hbusy, hdur]), ih, units_segmentsFrom e tg v q hbusy, hdur]
    rfl

/-- `adv` reaches IDLE exactly when nothing is left to emit. -/
theorem adv_phase_idle_iff (p : Position) :
    (adv e tg v p).phase = .idle ↔ units (segmentsFrom e tg v p) = [] := by
  rw [← units_segmentsFrom_adv]
  constructor
  · intro h
    rw [segmentsFrom, h]
    rfl
  · intro h
    by_contra hbusy
    have hdur := (adv_stops e tg v p).resolve_left hbusy
    rw [units_segmentsFrom e tg v _ hbusy, List.append_eq_nil_iff, List.replicate_eq_nil_iff] at h
    omega

end Sys2Proof.Machine
end

section
/-! What a step can write to the generator's registers (spec 42_pulse.md R128, R129, R134): nothing, one generator step, or
the start of the transmission that a command names. -/

namespace Sys2Proof.Machine

/-! ### The start of a transmission -/

/-- `start` leaves the generator IDLE exactly when the waveform has no pulse unit (42_pulse.md R128). -/
theorem PulseGen.start_phase_idle_iff (g : PulseGen) (e : Encoding) (tg : Bool) (pid : BitVec 8) (v : Word)
    {rep : BitVec 16} (hrep : rep ≠ 0) :
    (g.start e tg pid v rep).phase = .idle ↔ units (waveform e tg v rep.toNat) = [] := by
  have hleft : (rep - 1).toNat + 1 = rep.toNat := by bv_omega
  rw [PulseGen.start, PulseGen.moveTo_phase, adv_phase_idle_iff, segmentsFrom, hleft]

/-- The command is one of the two that start a transmission, and these are the operands it starts it with. -/
def Transmits (c : Config) (i : Instr) (pid : BitVec 8) (v : Word) (rep : BitVec 16) : Prop :=
  i = .tx pid rep v ∨ ∃ idx onoff, i = .send idx onoff rep ∧ resolve c idx onoff = .found pid v

/-- The command finds the generator `g` IDLE and starts it, which leaves `g'` (R128). -/
def PulseGen.StartedBy (c : Config) (i : Instr) (g g' : PulseGen) : Prop :=
  g.phase = .idle ∧ ∃ pid v rep e, Transmits c i pid v rep ∧ rep ≠ 0 ∧ readEnc c pid.toNat = some e ∧
    g' = g.start e c.trailingGap pid v rep

/-- The generator `g` is busy, and its own step leaves `g'` (R129). -/
def PulseGen.SteppedTo (c : Config) (g g' : PulseGen) : Prop :=
  g.phase ≠ .idle ∧ ∃ e, readEnc c g.pid.toNat = some e ∧ g' = g.step e c.trailingGap

/-- The commands that can change the generator's registers start it. -/
theorem exec_changes_pg {i : Instr} {s t : State} (h : exec i s = .next t) (hpg : t.pg ≠ s.pg) :
    PulseGen.StartedBy s.cfg i s.pg t.pg := by
  cases i with
  | tick => cases h; exact absurd rfl hpg
  | arm ticks => cases h; exact absurd rfl hpg
  | passed => cases h; exact absurd rfl hpg
  | passed1 => cases h; exact absurd rfl hpg
  | resolve idx onoff => cases h; exact absurd rfl hpg
  | tx pid rep v =>
    obtain ⟨-, hx⟩ | ⟨-, -, hx⟩ | ⟨e, -, -, -, hx⟩ | ⟨e, hidle, he, hrep, hx⟩ := execTx_cases pid rep v s
    · rw [exec, hx] at h; cases h; exact absurd rfl hpg
    · rw [exec, hx] at h; cases h; exact absurd rfl hpg
    · rw [exec, hx] at h; cases h; exact absurd rfl hpg
    · rw [exec, hx] at h; cases h
      exact ⟨hidle, pid, v, rep, e, .inl rfl, by bv_omega, he, rfl⟩
  | send idx onoff rep =>
    obtain ⟨-, hx⟩ | ⟨-, -, hx⟩ | ⟨pid, v, e, hidle, hr, hrep, he, hx⟩ | ⟨pid, v, -, -, -, -, hx⟩ :=
      execSend_cases idx onoff rep s
    · rw [exec, hx] at h; cases h; exact absurd rfl hpg
    · rw [exec, hx] at h; cases h; exact absurd rfl hpg
    · rw [exec, hx] at h; cases h
      exact ⟨hidle, pid, v, rep, e, .inr ⟨idx, onoff, rfl, hr⟩, by bv_omega, he, rfl⟩
    · rw [exec, hx] at h; cases h

/-! ### What a step writes -/

theorem commandStep_changes_pg {cmd arg : Word} {s t : State} (h : commandStep cmd arg s = .next t)
    (hpg : t.pg ≠ s.pg) : ∃ i, decodeAt s.cfg cmd arg = some i ∧ PulseGen.StartedBy s.cfg i s.pg t.pg := by
  obtain ⟨-, rfl⟩ | ⟨i, hd, hx⟩ := commandStep_next h
  · exact absurd rfl hpg
  · exact ⟨i, hd, exec_changes_pg hx hpg⟩

theorem pulseStep_changes_pg {s t : State} (h : pulseStep s = .next t) (hpg : t.pg ≠ s.pg) :
    PulseGen.SteppedTo s.cfg s.pg t.pg := by
  obtain ⟨-, hx⟩ | ⟨e, hbusy, he, hx⟩ | ⟨-, -, hx⟩ := pulseStep_cases s
  · rw [hx] at h; cases h; exact absurd rfl hpg
  · rw [hx] at h; cases h; exact ⟨hbusy, e, he, rfl⟩
  · rw [hx] at h; cases h

theorem unscheduledStep_changes_pg {s t : State} (h : unscheduledStep s = .next t) (hpg : t.pg ≠ s.pg) :
    PulseGen.SteppedTo s.cfg s.pg t.pg := by
  obtain ⟨-, hx⟩ | ⟨-, -, hx⟩ | ⟨k, -, -, hx⟩ := unscheduledStep_cases s
  · rw [hx] at h; cases h; exact absurd rfl hpg
  · rw [hx] at h; exact pulseStep_changes_pg (s := s.drawTurns) h hpg
  · rw [hx] at h; cases h; exact absurd rfl hpg

/-- The steps other than a reset that can change the generator's registers: a busy generator's own step, and a command that
starts an IDLE one. -/
theorem step_changes_pg {s t : State} (h : step s = .next t) (hpg : t.pg ≠ s.pg)
    (hreset : ∀ m rest, s.moves = m :: rest → m.isReset = false) :
    PulseGen.SteppedTo s.cfg s.pg t.pg ∨
      ∃ cmd arg rest i, s.moves = .command cmd arg :: rest ∧ decodeAt s.cfg cmd arg = some i ∧
        PulseGen.StartedBy s.cfg i s.pg t.pg := by
  obtain ⟨-, ⟨-, hu⟩ | ⟨m, rest, hm, hx⟩⟩ := step_next h
  · exact .inl (unscheduledStep_changes_pg hu hpg)
  · have hno := hreset m rest hm
    cases m with
    | command cmd arg =>
      obtain ⟨i, hd, hstart⟩ := commandStep_changes_pg (s := { s with moves := rest }) hx hpg
      exact .inr ⟨cmd, arg, rest, i, hm, hd, hstart⟩
    | tick => cases hx; exact absurd rfl hpg
    | pulse => exact .inl (pulseStep_changes_pg (s := { s with moves := rest }) hx hpg)
    | reset load => cases hno
    | powerOn c t0 => cases hno

/-- Settles O43: what `start` writes are the fields of `moveTo`, and of the steps that are no reset only a command that
transmits changes an IDLE generator. -/
theorem startLatchesAndSkipsEmptySegments : Obligations.StartLatchesAndSkipsEmptySegments := by
  constructor
  · intro g e tg pid v rep hrep
    rw [← sub_one_eq_ofNat (by bv_omega)]
    exact ⟨rfl, rfl, rfl, rfl, rfl, PulseGen.moveTo_rem_of_busy _ _ _ _, PulseGen.moveTo_rem_of_idle _ _ _ _,
      g.start_phase_idle_iff e tg pid v hrep⟩
  · intro s t hidle h hpg hreset
    obtain ⟨hbusy, -⟩ | ⟨cmd, arg, rest, i, hm, hd, -, pid, v, rep, e, hi, hstart⟩ := step_changes_pg h hpg hreset
    · exact absurd hidle hbusy
    · refine ⟨cmd, arg, rest, pid, v, rep, e, hm, ?_, hstart⟩
      obtain rfl | ⟨idx, onoff, rfl, hr⟩ := hi
      · exact .inl hd
      · exact .inr ⟨idx, onoff, hd, hr⟩

/-! ### Commands during a transmission -/

section
variable {s : State} (hbusy : s.pg.phase ≠ .idle)
include hbusy

theorem exec_tx_of_busy (pid : BitVec 8) (rep : BitVec 16) (v : BitVec 32) :
    exec (.tx pid rep v) s = .next { s with toBlock := s.toBlock.raiseFault .busy } :=
  State.onBlock_of_next (if_pos hbusy)

theorem exec_send_of_busy (idx : BitVec 16) (onoff : BitVec 8) (rep : BitVec 16) :
    exec (.send idx onoff rep) s = .next { s with toBlock := s.toBlock.raiseFault .busy } :=
  State.onBlock_of_next (if_pos hbusy)

/-- While the generator is busy no command stops the block: TX and SEND record Busy, the others answer in every state. -/
theorem exec_of_busy (i : Instr) : ∃ t, exec i s = .next t := by
  cases i with
  | tick => exact ⟨_, rfl⟩
  | arm ticks => exact ⟨_, rfl⟩
  | passed => exact ⟨_, rfl⟩
  | passed1 => exact ⟨_, rfl⟩
  | resolve idx onoff => exact ⟨_, rfl⟩
  | tx pid rep v => exact ⟨_, exec_tx_of_busy hbusy pid rep v⟩
  | send idx onoff rep => exact ⟨_, exec_send_of_busy hbusy idx onoff rep⟩

theorem commandStep_of_busy (cmd arg : Word) :
    ∃ t, commandStep cmd arg s = .next t ∧ t.pg = s.pg ∧ t.cfg = s.cfg ∧ t.tick = s.tick ∧ t.moves = s.moves := by
  unfold commandStep
  cases decodeAt s.cfg cmd arg with
  | none => exact ⟨_, rfl, rfl, rfl, rfl, rfl⟩
  | some i =>
    obtain ⟨t, ht⟩ := exec_of_busy hbusy i
    obtain ⟨hcfg, htick, hmoves, -⟩ := exec_keeps ht
    refine ⟨t, ht, ?_, hcfg, htick, hmoves⟩
    by_contra hpg
    obtain ⟨hidle, -⟩ := exec_changes_pg ht hpg
    exact hbusy hidle

end

/-- Settles O46: the outputs are read off the registers that `commandStep_of_busy` keeps, and a command cannot start what
is not IDLE. -/
theorem noCommandCancelsATransmission : Obligations.NoCommandCancelsATransmission := by
  constructor
  · intro s cmd arg rest hc hb hm
    obtain ⟨t, ht, hpg, hcfg, htick, hmoves⟩ :=
      commandStep_of_busy (s := { s with moves := rest }) (s.toBlock.busy_eq_true.mp hb) cmd arg
    have hrf : t.rfOut = s.rfOut := by rw [Block.rfOut, hpg]; rfl
    have hbusy : t.busy = s.busy := by rw [Block.busy, hpg]; rfl
    exact ⟨t, (step_of_moves hc hm).trans ht, hpg, hrf, hbusy.trans hb, hcfg, htick, hmoves⟩
  · intro s t hb h hreset
    by_cases hpg : t.pg = s.pg
    · exact .inl hpg
    · obtain ⟨-, hstep⟩ | ⟨_, _, _, _, -, -, hidle, -⟩ := step_changes_pg h hpg hreset
      · exact .inr hstep
      · exact absurd hidle (s.toBlock.busy_eq_true.mp hb)

end Sys2Proof.Machine
end

section
/-! TX and SEND in every state (spec 42_pulse.md R130, R131): the words they decode from, and the whole next state each
answers. -/

namespace Sys2Proof

/-! ### The words of the two commands -/

/-- R130's encoding: three operands and the opcode meet no other field. -/
theorem decode_tx (pid : BitVec 8) (rep : BitVec 16) (value : Word) :
    decode (encodeCmd (.tx pid rep value)) value = some (.tx pid rep value) := by
  have hextract (k n : Nat) : (encodeCmd (.tx pid rep value)).extractLsb' k n =
      (0x60000000#32).extractLsb' k n ||| (rep.setWidth 32 <<< 8).extractLsb' k n |||
        (pid.setWidth 32).extractLsb' k n := by
    rw [encodeCmd, BitVec.extractLsb'_or, BitVec.extractLsb'_or]
  have hhigh {k n : Nat} (hk : 24 ≤ k) (hn : k + n ≤ 32) :
      (encodeCmd (.tx pid rep value)).extractLsb' k n = (0x60000000#32).extractLsb' k n := by
    rw [hextract, extractLsb'_shiftLeft_of_le (by omega) hn, extractLsb'_setWidth_eq_zero (by omega),
      extractLsb'_setWidth_eq_zero (by omega), BitVec.or_zero, BitVec.or_zero]
  have hop : opField (encodeCmd (.tx pid rep value)) = 6#4 := hhigh (by decide) (by decide)
  have hres : (encodeCmd (.tx pid rep value)).extractLsb' 24 4 = 0#4 := hhigh (by decide) (by decide)
  have hpid : pidField (encodeCmd (.tx pid rep value)) = pid := by
    rw [pidField, hextract, extractLsb'_shiftLeft_eq_zero (by decide), extractLsb'_setWidth_self (by decide)]
    exact BitVec.zero_or
  have hrep : txRepField (encodeCmd (.tx pid rep value)) = rep := by
    rw [txRepField, hextract, extractLsb'_shiftLeft_of_le (by decide) (by decide),
      extractLsb'_setWidth_self (by decide), extractLsb'_setWidth_eq_zero (by decide), BitVec.or_zero]
    exact BitVec.zero_or
  simp [decode, hop, hres, hpid, hrep]

theorem sendRepField_eq_ofNat (arg : Word) : sendRepField arg = BitVec.ofNat 16 arg.toNat := by
  apply BitVec.eq_of_toNat_eq
  rw [sendRepField, BitVec.extractLsb'_toNat, Nat.shiftRight_zero, BitVec.toNat_ofNat]

theorem encodeCmd_send (idx : BitVec 16) (onoff : BitVec 8) (rep : BitVec 16) :
    encodeCmd (.send idx onoff rep) = withSwitchOperands 0x70000000#32 idx onoff := rfl

/-- R131's encoding: SEND's word is RESOLVE's with another opcode, and its repeat count is the low half of `arg`. -/
theorem decode_send (idx : BitVec 16) (onoff : BitVec 8) (arg : Word) :
    decode (withSwitchOperands 0x70000000#32 idx onoff) arg = some (.send idx onoff (BitVec.ofNat 16 arg.toNat)) := by
  have hop : opField (withSwitchOperands 0x70000000#32 idx onoff) = 7#4 :=
    withSwitchOperands_extract_high _ _ _ (by decide) (by decide)
  have hres : (withSwitchOperands 0x70000000#32 idx onoff).extractLsb' 24 4 = 0#4 :=
    withSwitchOperands_extract_high _ _ _ (by decide) (by decide)
  have hidx : lowHalfField (withSwitchOperands 0x70000000#32 idx onoff) = idx :=
    (lowHalfField_withSwitchOperands _ _ _).trans BitVec.zero_or
  have honoff : onoffField (withSwitchOperands 0x70000000#32 idx onoff) = onoff :=
    (onoffField_withSwitchOperands _ _ _).trans BitVec.zero_or
  simp [decode, hop, hres, hidx, honoff, sendRepField_eq_ofNat]

end Sys2Proof

namespace Sys2Proof.Machine

/-! ### The whole next state while the generator is IDLE -/

section
variable {s : State} (hidle : s.pg.phase = .idle)
include hidle

/-- `lookup` comes before the repeat count is looked at (R130). -/
theorem exec_tx_of_bad_pid {pid : BitVec 8} (hpid : s.cfg.enc.length ≤ pid.toNat) (rep : BitVec 16) (v : BitVec 32) :
    exec (.tx pid rep v) s = .next { s with toBlock := s.toBlock.raiseFault .badProtocolId } := by
  refine State.onBlock_of_next ?_
  rw [blockTx, if_neg (not_not_intro hidle), lookup_eq_readEnc, readEnc, List.getElem?_eq_none hpid]

theorem exec_tx_of_encoding {pid : BitVec 8} {e : Encoding} (he : s.cfg.enc[pid.toNat]? = some e) (rep : BitVec 16)
    (v : BitVec 32) :
    exec (.tx pid rep v) s = .next
      { s with
        toBlock :=
          (if 0 < rep.toNat then s.toBlock.start e s.cfg.trailingGap pid v rep else s.toBlock).respond .zero } := by
  refine State.onBlock_of_next ?_
  rw [blockTx, if_neg (not_not_intro hidle), lookup_eq_readEnc, readEnc, he]

theorem exec_send_of_nothing {idx : BitVec 16} {onoff : BitVec 8} {rep : BitVec 16}
    (h : resolve s.cfg idx onoff = .notFound ∨ rep = 0) :
    exec (.send idx onoff rep) s = .next { s with toBlock := s.toBlock.respond .zero } := by
  refine State.onBlock_of_next ?_
  rw [blockSend, if_neg (not_not_intro hidle)]
  obtain hr | rfl := h
  · rw [hr]
  · cases resolve s.cfg idx onoff <;> rfl

theorem exec_send_of_found {idx : BitVec 16} {onoff pid : BitVec 8} {rep : BitVec 16} {v : Word} {e : Encoding}
    (hr : resolve s.cfg idx onoff = .found pid v) (hrep : rep ≠ 0) (he : readEnc s.cfg pid.toNat = some e) :
    exec (.send idx onoff rep) s = .next
      { s with toBlock := (s.toBlock.start e s.cfg.trailingGap pid v rep).respond .zero } := by
  have hpos : rep.toNat ≠ 0 := by bv_omega
  refine State.onBlock_of_next ?_
  simp only [blockSend, hidle, hr, hpos, he, ne_eq, not_true_eq_false, if_false]

end

/-! ### What each command answers -/

/-- Settles O6: each of R130's cases, in its order, is one branch of TX. -/
theorem txStartsOrFaults : Obligations.TxStartsOrFaults := by
  refine ⟨decode_tx, fun s pid rep v => ⟨fun hbusy => exec_tx_of_busy hbusy pid rep v,
    fun hidle hpid => exec_tx_of_bad_pid hidle hpid rep v, fun hidle hpid hrep => ?_, fun e hidle he hrep => ?_⟩⟩
  · rw [exec_tx_of_encoding hidle (List.getElem?_eq_getElem hpid), hrep]
    rfl
  · rw [exec_tx_of_encoding hidle he, if_pos (by bv_omega)]
    rfl

/-- Settles O7: SEND starts what `resolve` finds, whose Encoding exists by W2, and does nothing where it finds no switch or
has nothing to repeat. -/
theorem sendStartsOrDoesNothing : Obligations.SendStartsOrDoesNothing := by
  refine ⟨decode_send, fun s idx onoff rep hc => ⟨fun hbusy => exec_send_of_busy hbusy idx onoff rep,
    fun hidle h => exec_send_of_nothing hidle ?_, fun x hidle hx ho hrep => ?_⟩⟩
  · rw [← or_assoc] at h
    exact h.imp_left resolve_of_bad
  · obtain ⟨e, he⟩ := readEnc_of_switch hc hx
    exact ⟨e, he, exec_send_of_found hidle (resolve_of_switch hx ho) hrep he⟩

end Sys2Proof.Machine
end

section
/-! What each step does to the recorded fault code (spec 60_exceptions.md R151 to R153): the first code stays until a reset,
and the commands that are no fault leave it. -/

namespace Sys2Proof.Machine

/-! ### Recording a code -/

theorem recordCode_noFault (code : FaultCode) : recordCode .noFault code = code := rfl

theorem recordCode_of_recorded {old : FaultCode} (h : old ≠ .noFault) (code : FaultCode) :
    recordCode old code = old :=
  if_neg h

/-! ### A recorded code stays -/

section
variable {s t : State} (hrec : s.fault ≠ .noFault)
include hrec

theorem exec_keeps_recorded_fault {i : Instr} (h : exec i s = .next t) : t.fault = s.fault := by
  cases i with
  | tick => cases h; rfl
  | arm ticks => cases h; rfl
  | passed => cases h; rfl
  | passed1 => cases h; rfl
  | resolve idx onoff => cases h; rfl
  | tx pid rep v =>
    obtain ⟨-, hx⟩ | ⟨-, -, hx⟩ | ⟨e, -, -, -, hx⟩ | ⟨e, -, -, -, hx⟩ := execTx_cases pid rep v s
    · rw [exec, hx] at h; cases h; exact recordCode_of_recorded hrec _
    · rw [exec, hx] at h; cases h; exact recordCode_of_recorded hrec _
    · rw [exec, hx] at h; cases h; rfl
    · rw [exec, hx] at h; cases h; rfl
  | send idx onoff rep =>
    obtain ⟨-, hx⟩ | ⟨-, -, hx⟩ | ⟨pid, v, e, -, -, -, -, hx⟩ | ⟨pid, v, -, -, -, -, hx⟩ :=
      execSend_cases idx onoff rep s
    · rw [exec, hx] at h; cases h; exact recordCode_of_recorded hrec _
    · rw [exec, hx] at h; cases h; rfl
    · rw [exec, hx] at h; cases h; rfl
    · rw [exec, hx] at h; cases h

theorem commandStep_keeps_recorded_fault {cmd arg : Word} (h : commandStep cmd arg s = .next t) :
    t.fault = s.fault := by
  obtain ⟨-, rfl⟩ | ⟨i, -, hx⟩ := commandStep_next h
  · exact recordCode_of_recorded hrec _
  · exact exec_keeps_recorded_fault hrec hx

theorem moveStep_keeps_recorded_fault {m : Move} (h : moveStep m s = .next t) (hm : m.isReset = false) :
    t.fault = s.fault := by
  cases m with
  | command cmd arg => exact commandStep_keeps_recorded_fault hrec h
  | tick => cases h; rfl
  | pulse => obtain ⟨g, rfl⟩ := pulseStep_next h; rfl
  | reset load => cases hm
  | powerOn c t0 => cases hm

end

theorem moveStep_clears_fault {m : Move} {s t : State} (h : moveStep m s = .next t) (hm : m.isReset = true) :
    t.fault = .noFault := by
  cases m with
  | command cmd arg => cases hm
  | tick => cases hm
  | pulse => cases hm
  | reset load => cases resetStep_next h; rfl
  | powerOn c t0 => cases powerOnStep_next h; rfl

theorem unscheduledStep_fault {s t : State} (h : unscheduledStep s = .next t) : t.fault = s.fault := by
  obtain ⟨-, hx⟩ | ⟨-, -, hx⟩ | ⟨k, -, -, hx⟩ := unscheduledStep_cases s
  · rw [hx] at h; cases h; rfl
  · rw [hx] at h; obtain ⟨g, rfl⟩ := pulseStep_next h; rfl
  · rw [hx] at h; cases h; rfl

/-- Settles O19: `recordCode` keeps what is recorded, the agents write no code, and both resets write `noFault`. -/
theorem onlyResetClearsTheFault : Obligations.OnlyResetClearsTheFault := by
  refine ⟨fun s code _ => ⟨fun hnone => ?_, fun hrec => recordCode_of_recorded hrec code⟩,
    fun s t h => ⟨fun hrec hreset => ?_, fun m rest hm hr => ?_⟩⟩
  · rw [Block.raiseFault_fault, hnone, recordCode_noFault]
  · obtain ⟨-, ⟨-, hu⟩ | ⟨m, rest, hm, hx⟩⟩ := step_next h
    · exact unscheduledStep_fault hu
    · exact moveStep_keeps_recorded_fault (s := { s with moves := rest }) hrec hx (hreset m rest hm)
  · exact moveStep_clears_fault (step_next_of_moves hm h) hr

/-! ### The commands that are no fault -/

/-- The commands that never fault (R152). -/
theorem exec_of_neither_tx_nor_send {i : Instr} (htx : ∀ pid rep v, i ≠ .tx pid rep v)
    (hsend : ∀ idx onoff rep, i ≠ .send idx onoff rep) (s : State) : ∃ t, exec i s = .next t ∧ t.fault = s.fault := by
  cases i with
  | tick => exact ⟨_, rfl, rfl⟩
  | arm ticks => exact ⟨_, rfl, rfl⟩
  | passed => exact ⟨_, rfl, rfl⟩
  | passed1 => exact ⟨_, rfl, rfl⟩
  | resolve idx onoff => exact ⟨_, rfl, rfl⟩
  | tx pid rep v => exact absurd rfl (htx pid rep v)
  | send idx onoff rep => exact absurd rfl (hsend idx onoff rep)

section
variable {s : State} (hidle : s.pg.phase = .idle)
include hidle

/-- With an existing protocol TX answers and records nothing, whether it starts or has nothing to repeat. -/
theorem exec_tx_of_idle {pid : BitVec 8} (hpid : pid.toNat < s.cfg.enc.length) (rep : BitVec 16) (v : BitVec 32) :
    ∃ t, exec (.tx pid rep v) s = .next t ∧ t.fault = s.fault := by
  refine ⟨_, exec_tx_of_encoding hidle (List.getElem?_eq_getElem hpid) rep v, ?_⟩
  by_cases hrep : 0 < rep.toNat
  · rw [if_pos hrep]; rfl
  · rw [if_neg hrep]; rfl

/-- SEND's one fault is Busy: W2 gives every switch it finds an Encoding. -/
theorem exec_send_of_idle (hc : admitted s.cfg = true) (idx : BitVec 16) (onoff : BitVec 8) (rep : BitVec 16) :
    ∃ t, exec (.send idx onoff rep) s = .next t ∧ t.fault = s.fault := by
  obtain ⟨hbusy, -⟩ | ⟨-, -, hx⟩ | ⟨pid, v, e, -, -, -, -, hx⟩ | ⟨pid, v, -, hr, -, hnone, -⟩ :=
    execSend_cases idx onoff rep s
  · exact absurd hidle hbusy
  · exact ⟨_, hx, rfl⟩
  · exact ⟨_, hx, rfl⟩
  · obtain ⟨e, he⟩ := execSend_never_faults hc hr
    rw [hnone] at he
    cases he

end

theorem commandStep_of_decodeAt_none {s : State} {cmd arg : Word} (h : decodeAt s.cfg cmd arg = none) :
    commandStep cmd arg s = .next { s with toBlock := s.toBlock.raiseFault .illegalCommand } := by
  rw [commandStep, h]
  rfl

theorem commandStep_of_decodeAt_some {s : State} {cmd arg : Word} {i : Instr} (h : decodeAt s.cfg cmd arg = some i) :
    commandStep cmd arg s = exec i s := by
  rw [commandStep, h]

/-- Settles O18: the move is the transaction, and each clause is one branch of it, in R153's order; every fault is
`Block.raiseFault`. -/
theorem faultOrderAndEffect : Obligations.FaultOrderAndEffect := by
  intro s cmd arg rest hc hm faulted
  let u : State := { s with moves := rest }
  have hstep : step s = commandStep cmd arg u := step_of_moves hc hm
  refine ⟨fun hd => hstep.trans (commandStep_of_decodeAt_none (s := u) hd), fun pid rep v hd => ?_,
    fun idx onoff rep hd => ?_, fun i hd htx hsend => ?_⟩
  · rw [hstep, commandStep_of_decodeAt_some (s := u) hd, Block.busy_eq_true, Block.busy_eq_false]
    exact ⟨fun hbusy => exec_tx_of_busy (s := u) hbusy pid rep v,
      fun hidle hpid => exec_tx_of_bad_pid (s := u) hidle hpid rep v,
      fun hidle hpid => exec_tx_of_idle (s := u) hidle hpid rep v⟩
  · rw [hstep, commandStep_of_decodeAt_some (s := u) hd, Block.busy_eq_true, Block.busy_eq_false]
    exact ⟨fun hbusy => exec_send_of_busy (s := u) hbusy idx onoff rep,
      fun hidle => exec_send_of_idle (s := u) hidle hc idx onoff rep⟩
  · rw [hstep, commandStep_of_decodeAt_some (s := u) hd]
    exact exec_of_neither_tx_nor_send htx hsend u

end Sys2Proof.Machine
end

section
/-! How many generator steps a transmission takes (spec 42_pulse.md R129, R133): the waveform has `totalUnits` pulse units, the
generator starts with that many units left, and each of its steps takes one. -/

namespace Sys2Proof.Machine

variable (e : Encoding) (tg : Bool) (v : Word)

/-! ### The length of the waveform -/

theorem length_units_symbolsFrom (i k : Nat) : (units (symbolsFrom e v i k)).length = symbolUnits e v i k := by
  induction k generalizing i with
  | zero => rfl
  | succ k ih =>
    rw [symbolsFrom, units_append, List.length_append, ih, symbolUnits]
    simp [symbolSegments]

theorem length_units_frame : (units (frame e v)).length = frameUnits e v := by
  simp only [frame, units_append, units_preamble, List.length_append, List.length_replicate,
    length_units_symbolsFrom, frameUnits]

theorem length_units_gapFrames (k : Nat) : (units (gapFrames e v k)).length = k * (e.gap + frameUnits e v) := by
  induction k with
  | zero => simp [gapFrames]
  | succ k ih =>
    simp only [gapFrames, units_cons, units_append, List.length_append, List.length_replicate, ih,
      length_units_frame]
    ring

/-- R133's `T` is the number of pulse units of the waveform (R125, R126). -/
theorem length_units_waveform (rep : Nat) : (units (waveform e tg v rep)).length = totalUnits e tg v rep := by
  cases rep with
  | zero => rfl
  | succ k =>
    have htail : (units (if tg then [⟨.low, e.gap⟩] else [])).length = if tg then e.gap else 0 := by
      cases tg <;> simp
    simp only [waveform, totalUnits, Nat.succ_ne_zero, if_false, units_append, List.length_append,
      length_units_frame, length_units_gapFrames, htail, Nat.add_sub_cancel]
    ring

/-! ### The units left -/

/-- The positions that the fuel covers emit what the waveform has from there on. -/
theorem unitsWithin_eq_length {k : Nat} {p : Position} (hk : positionsLeft e p ≤ k) :
    unitsWithin e tg v k p = (units (segmentsFrom e tg v p)).length := by
  induction k generalizing p with
  | zero => simp [unitsWithin, segmentsFrom, phase_idle_of_positionsLeft e p (by omega)]
  | succ k ih =>
    by_cases hidle : p.phase = .idle
    · simp [unitsWithin, segmentsFrom, hidle]
    · have hlt := positionsLeft_succ_lt e tg p hidle
      rw [unitsWithin, if_neg hidle, ih (by omega), units_segmentsFrom e tg v p hidle, List.length_append,
        List.length_replicate]

section
variable {g : PulseGen}

theorem PulseGen.unitsLeft_of_idle (h : g.phase = .idle) : g.unitsLeft e tg = 0 :=
  if_pos h

/-- The rest of the current segment, and what comes after it. -/
theorem PulseGen.unitsLeft_of_busy (h : g.phase ≠ .idle) :
    g.unitsLeft e tg = g.rem + (units (segmentsFrom e tg g.val (succ e tg g.position))).length := by
  rw [unitsLeft, if_neg h, unitsWithin_eq_length e tg g.val (positionsLeft_succ_lt e tg g.position h).le]

end

variable (g : PulseGen)

/-- A generator that moves to the next position of positive duration has left what the waveform has from there on. -/
theorem PulseGen.unitsLeft_moveTo_adv (p : Position) :
    (g.moveTo e g.val (adv e tg g.val p)).unitsLeft e tg = (units (segmentsFrom e tg g.val p)).length := by
  by_cases hidle : (adv e tg g.val p).phase = .idle
  · rw [unitsLeft_of_idle e tg (g := g.moveTo _ _ _) hidle, (adv_phase_idle_iff e tg g.val p).mp hidle]
    rfl
  · rw [unitsLeft_of_busy e tg (g := g.moveTo _ _ _) hidle, moveTo_rem_of_busy g e _ _ hidle, moveTo_val,
      moveTo_position, ← units_segmentsFrom_adv e tg g.val p, units_segmentsFrom e tg g.val _ hidle,
      List.length_append, List.length_replicate]

theorem PulseGen.moveTo_adv_rem_pos (p : Position) (h : (g.moveTo e g.val (adv e tg g.val p)).phase ≠ .idle) :
    1 ≤ (g.moveTo e g.val (adv e tg g.val p)).rem := by
  rw [moveTo_rem_of_busy g e _ _ h]
  exact (adv_stops e tg g.val p).resolve_left h

/-! ### A transmission with `u` units left -/

/-- The generator, sending with `e`, has `u` units left. While it is busy one of them is of its current segment
(10_state.md R30), so it is busy exactly while any is left. -/
structure PulseGen.HasLeft (g : PulseGen) (u : Nat) : Prop where
  rem_pos : g.phase ≠ .idle → 1 ≤ g.rem
  unitsLeft_eq : g.unitsLeft e tg = u

theorem PulseGen.hasLeft_moveTo_adv (p : Position) :
    (g.moveTo e g.val (adv e tg g.val p)).HasLeft e tg (units (segmentsFrom e tg g.val p)).length :=
  ⟨g.moveTo_adv_rem_pos e tg p, g.unitsLeft_moveTo_adv e tg p⟩

/-- `start` leaves the generator with the whole transmission to send (R128, R133). -/
theorem PulseGen.hasLeft_start (pid : BitVec 8) {rep : BitVec 16} (hrep : rep ≠ 0) :
    (g.start e tg pid v rep).HasLeft e tg (totalUnits e tg v rep.toNat) := by
  have hleft : (rep - 1).toNat + 1 = rep.toNat := by bv_omega
  have h := PulseGen.hasLeft_moveTo_adv e tg { g with pid := pid, val := v } ⟨.preH, 0, rep - 1⟩
  rwa [segmentsFrom, hleft, length_units_waveform] at h

theorem PulseGen.step_pid : (g.step e tg).pid = g.pid := by
  unfold PulseGen.step
  split <;> rfl

section
variable {e : Encoding} {tg : Bool} {g : PulseGen} {u : Nat}

theorem PulseGen.HasLeft.phase_eq_idle (h : g.HasLeft e tg 0) : g.phase = .idle := by
  by_contra hbusy
  have hrem := h.rem_pos hbusy
  have hleft := h.unitsLeft_eq
  rw [unitsLeft_of_busy e tg hbusy] at hleft
  omega

theorem PulseGen.HasLeft.phase_ne_idle (h : g.HasLeft e tg (u + 1)) : g.phase ≠ .idle := by
  intro hidle
  have hleft := h.unitsLeft_eq
  rw [unitsLeft_of_idle e tg hidle] at hleft
  omega

/-- A step of the generator sends one unit (R129): it counts `rem` down, or moves on when that was the segment's last. -/
theorem PulseGen.HasLeft.step (h : g.HasLeft e tg (u + 1)) : (g.step e tg).HasLeft e tg u := by
  have hbusy := h.phase_ne_idle
  have hrem := h.rem_pos hbusy
  have hleft := h.unitsLeft_eq
  rw [unitsLeft_of_busy e tg hbusy] at hleft
  by_cases hlong : 1 < g.rem
  · rw [PulseGen.step, if_pos hlong]
    have hnext : { g with rem := g.rem - 1 }.unitsLeft e tg =
        g.rem - 1 + (units (segmentsFrom e tg g.val (succ e tg g.position))).length := unitsLeft_of_busy e tg hbusy
    exact ⟨fun _ => Nat.le_sub_one_of_lt hlong, by omega⟩
  · rw [PulseGen.step, if_neg hlong]
    have hu : (units (segmentsFrom e tg g.val (succ e tg g.position))).length = u := by omega
    exact hu ▸ g.hasLeft_moveTo_adv e tg _

end

end Sys2Proof.Machine
end

section
/-! Transmissions in infinite runs (spec 60_exceptions.md R161, R162): the generator's step is the only one that takes a unit
from a transmission that no reset interrupts, and fairness makes it come until none is left. -/

namespace Sys2Proof.Machine

/-! ### A transmission under one move -/

/-- In `s` the generator sends with the entry `e` of the configuration `c`, and has `u` pulse units left. -/
structure State.Sending (c : Config) (e : Encoding) (u : Nat) (s : State) : Prop where
  cfg_eq  : s.cfg = c
  entry   : readEnc c s.pg.pid.toNat = some e
  hasLeft : s.pg.HasLeft e c.trailingGap u

section
variable {c : Config} {e : Encoding} {s t : State} {u : Nat}

theorem State.Sending.busy_eq_false (h : s.Sending c e 0) : s.busy = false :=
  s.toBlock.busy_eq_false.mpr h.hasLeft.phase_eq_idle

theorem State.Sending.busy_eq_true (h : s.Sending c e (u + 1)) : s.busy = true :=
  s.toBlock.busy_eq_true.mpr h.hasLeft.phase_ne_idle

/-- The end of a pulse unit sends one unit. -/
theorem State.Sending.moveStep_pulse {m : Move} (h : s.Sending c e (u + 1)) (hx : moveStep m s = .next t)
    (hpulse : m.isPulse = true) : t.Sending c e u := by
  cases m with
  | pulse =>
    obtain ⟨rfl, hentry, hleft⟩ := h
    obtain ⟨hidle, -⟩ | ⟨e', -, he', hs⟩ | ⟨-, -, hs⟩ := pulseStep_cases s
    · exact absurd hidle hleft.phase_ne_idle
    · obtain rfl : e' = e := Option.some.inj (he'.symm.trans hentry)
      cases hs.symm.trans hx
      exact ⟨rfl, (s.pg.step_pid e' _).symm ▸ hentry, hleft.step⟩
    · cases hs.symm.trans hx
  | command cmd arg => cases hpulse
  | tick => cases hpulse
  | reset load => cases hpulse
  | powerOn load t0 => cases hpulse

/-- Any other move but a reset leaves the transmission as it is (42_pulse.md R134). -/
theorem State.Sending.moveStep_other {m : Move} (h : s.Sending c e (u + 1)) (hx : moveStep m s = .next t)
    (hreset : m.isReset = false) (hpulse : m.isPulse = false) : t.Sending c e (u + 1) := by
  cases m with
  | command cmd arg =>
    obtain ⟨t', ht', hpg, hcfg, -⟩ := commandStep_of_busy h.hasLeft.phase_ne_idle cmd arg
    cases ht'.symm.trans hx
    exact ⟨hcfg.trans h.cfg_eq, hpg ▸ h.entry, hpg ▸ h.hasLeft⟩
  | tick => cases hx; exact ⟨h.cfg_eq, h.entry, h.hasLeft⟩
  | pulse => cases hpulse
  | reset load => cases hreset
  | powerOn load t0 => cases hreset

/-! ### The command that starts it -/

theorem exec_of_transmits {i : Instr} {pid : BitVec 8} {v : Word} {rep : BitVec 16} (hidle : s.pg.phase = .idle)
    (hi : Transmits s.cfg i pid v rep) (hrep : rep ≠ 0) (he : readEnc s.cfg pid.toNat = some e) :
    exec i s = .next { s with toBlock := (s.toBlock.start e s.cfg.trailingGap pid v rep).respond .zero } := by
  obtain rfl | ⟨idx, onoff, rfl, hr⟩ := hi
  · rw [exec_tx_of_encoding hidle he, if_pos (by bv_omega)]
  · exact exec_send_of_found hidle hr hrep he

/-- The command leaves all units of the transmission to send (42_pulse.md R128, R133). -/
theorem sending_of_transmits {cmd arg : Word} {i : Instr} {pid : BitVec 8} {v : Word} {rep : BitVec 16}
    (hidle : s.pg.phase = .idle) (hd : decodeAt s.cfg cmd arg = some i) (hi : Transmits s.cfg i pid v rep)
    (hrep : rep ≠ 0) (he : readEnc s.cfg pid.toNat = some e) (hx : commandStep cmd arg s = .next t) :
    t.Sending s.cfg e (totalUnits e s.cfg.trailingGap v rep.toNat) := by
  obtain ⟨hnone, -⟩ | ⟨j, hj, hexec⟩ := commandStep_next hx
  · cases hnone.symm.trans hd
  · obtain rfl : j = i := Option.some.inj (hj.symm.trans hd)
    cases (exec_of_transmits hidle hi hrep he).symm.trans hexec
    exact ⟨rfl, he, s.pg.hasLeft_start e _ v pid hrep⟩

end

/-! ### A transmission in a run -/

section
variable {r : Nat → State} {ms : Nat → Move} {c : Config} {e : Encoding} {u a : Nat}

/-- The move of step `n` of a run, as a move of the state before it. -/
theorem RunOf.moveStep_next (hrun : RunOf r ms) (n : Nat) : moveStep (ms n) (r n) = .next (r (n + 1)) := by
  have h := step_next_of_moves rfl (hrun.makes n)
  have hs : { r n with moves := [] } = r n := by rw [← hrun.no_other n]
  rwa [← hs]

/-- Until the generator's next step the transmission stays as it is. -/
theorem RunOf.sending_until_pulse (hrun : RunOf r ms) (hreset : ∀ k, a ≤ k → (ms k).isReset = false)
    (h : (r a).Sending c e (u + 1)) {b : Nat} (hab : a ≤ b) (hno : ∀ k, a ≤ k → k < b → (ms k).isPulse = false) :
    (r b).Sending c e (u + 1) := by
  induction b, hab using Nat.le_induction with
  | base => exact h
  | succ b hab ih =>
    exact (ih fun k hk hkb => hno k hk (by omega)).moveStep_other (hrun.moveStep_next b) (hreset b hab)
      (hno b hab (by omega))

/-- Weak fairness: a generator with units left makes a step, and so a first one. -/
theorem WeaklyFair.exists_first_pulse (hfair : WeaklyFair r ms) (hrun : RunOf r ms)
    (hreset : ∀ k, a ≤ k → (ms k).isReset = false) (h : (r a).Sending c e (u + 1)) :
    ∃ b, a ≤ b ∧ (ms b).isPulse = true ∧ ∀ k, a ≤ k → k < b → (ms k).isPulse = false := by
  have hex : ∃ b, a ≤ b ∧ (ms b).isPulse = true := by
    by_contra hnone
    have hno (k : Nat) (hk : a ≤ k) : (ms k).isPulse = false :=
      Bool.eq_false_of_not_eq_true fun hp => hnone ⟨k, hk, hp⟩
    obtain ⟨b, hb, hm⟩ := hfair.generator a fun b hb =>
      (hrun.sending_until_pulse hreset h hb fun k hk _ => hno k hk).busy_eq_true
    exact hnone ⟨b, hb, by rw [hm]; rfl⟩
  obtain ⟨hab, hp⟩ := Nat.find_spec hex
  refine ⟨Nat.find hex, hab, hp, fun k hk hlt => ?_⟩
  exact Bool.eq_false_of_not_eq_true fun hpk => Nat.find_min hex hlt ⟨hk, hpk⟩

/-- Cutting a stretch of the run at its first generator step. -/
theorem countP_isPulse_of_first {b m : Nat} (hab : a ≤ b) (hbm : b < m) (hp : (ms b).isPulse = true)
    (hno : ∀ k, a ≤ k → k < b → (ms k).isPulse = false) :
    (List.range' a (m - a)).countP (fun k => (ms k).isPulse) =
      (List.range' (b + 1) (m - (b + 1))).countP (fun k => (ms k).isPulse) + 1 := by
  have hcut : List.range' a (m - a) = List.range' a (b - a) ++ b :: List.range' (b + 1) (m - (b + 1)) := by
    rw [← List.range'_succ, show m - a = b - a + (m - (b + 1) + 1) by omega, ← List.range'_append_1,
      Nat.add_sub_cancel' hab]
  have hbefore : (List.range' a (b - a)).countP (fun k => (ms k).isPulse) = 0 := by
    refine List.countP_eq_zero.mpr fun k hk => ?_
    obtain ⟨hk, hkb⟩ := List.mem_range'_1.mp hk
    simp [hno k hk (by omega)]
  rw [hcut, List.countP_append, hbefore, Nat.zero_add,
    List.countP_cons_of_pos (p := fun k => (ms k).isPulse) hp]

/-- With `u` units left the generator is busy up to the `u`-th of its steps, and IDLE right after it. -/
theorem RunOf.transmission_ends (hrun : RunOf r ms) (hfair : WeaklyFair r ms)
    (hreset : ∀ k, a ≤ k → (ms k).isReset = false) (h : (r a).Sending c e u) :
    ∃ m, a ≤ m ∧ (∀ k, a ≤ k → k < m → (r k).busy = true) ∧ (r m).busy = false ∧
      (List.range' a (m - a)).countP (fun k => (ms k).isPulse) = u := by
  induction u generalizing a with
  | zero => exact ⟨a, Nat.le_refl a, fun k hk hka => by omega, h.busy_eq_false, by simp⟩
  | succ u ih =>
    obtain ⟨b, hab, hp, hno⟩ := hfair.exists_first_pulse hrun hreset h
    have hsending (k : Nat) (hk : a ≤ k) (hkb : k ≤ b) : (r k).Sending c e (u + 1) :=
      hrun.sending_until_pulse hreset h hk fun j hj hjk => hno j hj (by omega)
    have hnext := (hsending b hab (Nat.le_refl b)).moveStep_pulse (hrun.moveStep_next b) hp
    obtain ⟨m, hbm, hbusy, hidle, hcount⟩ := ih (fun k hk => hreset k (by omega)) hnext
    refine ⟨m, by omega, fun k hk hkm => ?_, hidle, ?_⟩
    · obtain hbk | hkb := Nat.lt_or_ge b k
      · exact hbusy k hbk hkm
      · exact (hsending k hk hkb).busy_eq_true
    · rw [countP_isPulse_of_first hab hbm hp hno, hcount]

end

/-- Settles O25: the command leaves `T` units to send, and under fairness the generator makes its steps until none is
left. -/
theorem transmissionsEndUnderFairness : Obligations.TransmissionsEndUnderFairness := by
  intro r ms hrun hfair n cmd arg pid rep v e hm hbusy he hrep hd hreset
  have hidle := (r n).toBlock.busy_eq_false.mp hbusy
  have hx : commandStep cmd arg (r n) = .next (r (n + 1)) := by
    have h := hrun.moveStep_next n
    rwa [hm] at h
  have hstart : (r (n + 1)).Sending (r n).cfg e (totalUnits e (r n).cfg.trailingGap v rep.toNat) := by
    obtain hd | ⟨idx, onoff, hd, hr⟩ := hd
    · exact sending_of_transmits hidle hd (.inl rfl) hrep he hx
    · exact sending_of_transmits hidle hd (.inr ⟨idx, onoff, rfl, hr⟩) hrep he hx
  exact hrun.transmission_ends hfair hreset hstart

end Sys2Proof.Machine
end

section
/-! Operands that a host saturates (spec 70_reset_and_hazards.md R187): the saturation values 65535 and 255 lie outside every
Switch table that W1 admits and outside the legal on/off values, so cutting a value off there never changes whether, or to
which switch, it resolves. -/

namespace Sys2Proof.Machine

/-! ### The saturated operands as numbers -/

theorem hostIdx_of_gt {n : Nat} (h : 65535 < n) : hostIdx n = 65535 := if_pos h

theorem hostOnoff_of_gt {m : Nat} (h : 255 < m) : hostOnoff m = 255 := if_pos h

theorem hostIdx_toNat (n : Nat) : (hostIdx n).toNat = min n 65535 := by
  obtain h | h := Nat.lt_or_ge 65535 n
  · rw [hostIdx_of_gt h, Nat.min_eq_right h.le]
    rfl
  · rw [hostIdx, if_neg (by omega), BitVec.toNat_ofNat, Nat.mod_eq_of_lt (by omega), Nat.min_eq_left h]

theorem hostOnoff_toNat (m : Nat) : (hostOnoff m).toNat = min m 255 := by
  obtain h | h := Nat.lt_or_ge 255 m
  · rw [hostOnoff_of_gt h, Nat.min_eq_right h.le]
    rfl
  · rw [hostOnoff, if_neg (by omega), BitVec.toNat_ofNat, Nat.mod_eq_of_lt (by omega), Nat.min_eq_left h]

/-! ### How a saturated pair resolves -/

/-- W1 of an admitted configuration, for the Switch table: no switch has the saturation value as its index. -/
theorem sw_length_le {c : Config} (hc : admitted c = true) : c.sw.length ≤ 65535 := by
  simp only [admitted, checkW1, Bool.and_eq_true] at hc
  exact of_decide_eq_true hc.1.2

/-- The index of an existing switch is sent as it is. -/
theorem hostIdx_toNat_of_switch {c : Config} (hc : admitted c = true) {n : Nat} {x : Switch}
    (hx : c.sw[n]? = some x) : (hostIdx n).toNat = n := by
  have hlt : n < c.sw.length := (List.getElem?_eq_some_iff.mp hx).1
  have hle := sw_length_le hc
  rw [hostIdx_toNat, Nat.min_eq_left (by omega)]

theorem resolve_host_of_switch {c : Config} (hc : admitted c = true) {n m : Nat} {x : Switch}
    (hx : c.sw[n]? = some x) (hm : m ≤ 1) :
    resolve c (hostIdx n) (hostOnoff m) = .found x.protocolId (switchCommand x (hostOnoff m)) :=
  resolve_of_switch (by rw [hostIdx_toNat_of_switch hc hx, hx]) (by rw [hostOnoff_toNat]; omega)

/-- A value outside its range stays outside when it is saturated. -/
theorem resolve_host_of_bad {c : Config} (hc : admitted c = true) {n m : Nat} (h : c.sw.length ≤ n ∨ 1 < m) :
    resolve c (hostIdx n) (hostOnoff m) = .notFound := by
  refine resolve_of_bad (h.imp (fun hn => ?_) fun hm => ?_)
  · rw [hostIdx_toNat]
    exact Nat.le_min.mpr ⟨hn, sw_length_le hc⟩
  · rw [hostOnoff_toNat]
    omega

/-- Settles O40: the mapping is `min` with the saturation value, and an admitted table and the legal on/off values end
below it. -/
theorem saturatedOperandsNeverAlias : Obligations.SaturatedOperandsNeverAlias := by
  refine ⟨fun n => ⟨hostIdx_of_gt, fun h => ?_, hostOnoff_of_gt, fun h => ?_⟩,
    fun c hc n m => ⟨fun x hx hm => ?off, fun x hx hm => ?on, resolve_host_of_bad hc⟩⟩
  · rw [hostIdx_toNat, Nat.min_eq_left h]
  · rw [hostOnoff_toNat, Nat.min_eq_left h]
  case off =>
    subst hm
    exact resolve_host_of_switch hc hx (by decide)
  case on =>
    subst hm
    exact resolve_host_of_switch hc hx (by decide)

end Sys2Proof.Machine
end

section
/-! Decoding against encoding (spec 30_encoding.md R61 to R69): the word of a command decodes to it, and a decoded word has
nothing in it but the opcode and the operands that were read, so no other word decodes to the same command. -/

namespace Sys2Proof

/-! ### A decoded word as a number -/

theorem lowHalfField_toNat (cmd : Word) : (lowHalfField cmd).toNat = cmd.toNat % 2 ^ 16 := by
  rw [lowHalfField, BitVec.extractLsb'_toNat, Nat.shiftRight_zero]

theorem onoffField_toNat (cmd : Word) : (onoffField cmd).toNat = cmd.toNat / 2 ^ 16 % 2 ^ 8 := by
  rw [onoffField, BitVec.extractLsb'_toNat, Nat.shiftRight_eq_div_pow]

theorem pidField_toNat (cmd : Word) : (pidField cmd).toNat = cmd.toNat % 2 ^ 8 := by
  rw [pidField, BitVec.extractLsb'_toNat, Nat.shiftRight_zero]

theorem txRepField_toNat (cmd : Word) : (txRepField cmd).toNat = cmd.toNat / 2 ^ 8 % 2 ^ 16 := by
  rw [txRepField, BitVec.extractLsb'_toNat, Nat.shiftRight_eq_div_pow]

/-- The command word as a number: the opcode and each operand at the place that R61 gives it, and 0 elsewhere (R63). -/
def cmdNumber : Instr → Nat
  | .tick => 1 * 2 ^ 28
  | .arm ticks => 2 * 2 ^ 28 + ticks.toNat
  | .passed => 3 * 2 ^ 28
  | .passed1 => 4 * 2 ^ 28
  | .resolve idx onoff => 5 * 2 ^ 28 + onoff.toNat * 2 ^ 16 + idx.toNat
  | .tx pid rep _ => 6 * 2 ^ 28 + rep.toNat * 2 ^ 8 + pid.toNat
  | .send idx onoff _ => 7 * 2 ^ 28 + onoff.toNat * 2 ^ 16 + idx.toNat

/-- One opcode's branch of the decoder answers its own command, with the reserved bits 0, or leaves the word to the next. -/
theorem opcode_branch_eq_some {cmd : Word} {op : BitVec 4} {k n : Nat} {i j : Instr} {rest : Option Instr}
    (h : (if opField cmd = op then if cmd.extractLsb' k n ≠ 0#n then none else some j else rest) = some i) :
    (cmd.toNat / 2 ^ 28 = op.toNat ∧ cmd.toNat / 2 ^ k % 2 ^ n = 0 ∧ j = i) ∨ rest = some i := by
  by_cases hop : opField cmd = op
  · rw [if_pos hop] at h
    by_cases hres : cmd.extractLsb' k n = 0#n
    · rw [if_neg (not_not_intro hres)] at h
      rw [← BitVec.toNat_inj, BitVec.extractLsb'_toNat, Nat.shiftRight_eq_div_pow, BitVec.toNat_zero] at hres
      exact .inl ⟨by rw [← opField_toNat, hop], hres, Option.some.inj h⟩
    · rw [if_pos hres] at h
      cases h
  · rw [if_neg hop] at h
    exact .inr h

theorem cmdNumber_of_decode {cmd arg : Word} {i : Instr} (h : decode cmd arg = some i) : cmd.toNat = cmdNumber i := by
  have hlow := lowHalfField_toNat cmd
  have honoff := onoffField_toNat cmd
  have hpid := pidField_toNat cmd
  have hrep := txRepField_toNat cmd
  unfold decode at h
  iterate 7
    obtain ⟨hop, hres, rfl⟩ | h := opcode_branch_eq_some h
    · simp only [cmdNumber, BitVec.reduceToNat] at hop ⊢
      omega
  cases h

/-! ### The argument word -/

theorem sendRepField_setWidth (rep : BitVec 16) : sendRepField (rep.setWidth 32) = rep :=
  extractLsb'_setWidth_self (by decide) rep

/-- The bits that SEND reads are its repeat count (R61). -/
theorem and_argMask_send (arg : Word) (idx : BitVec 16) (onoff : BitVec 8) (rep : BitVec 16) :
    arg &&& argMask (.send idx onoff rep) = (sendRepField arg).setWidth 32 := by
  apply BitVec.eq_of_toNat_eq
  have hmask : (argMask (.send idx onoff rep)).toNat = 2 ^ 16 - 1 := rfl
  rw [BitVec.toNat_and, hmask, Nat.and_two_pow_sub_one_eq_mod, sendRepField_eq_ofNat, BitVec.toNat_setWidth,
    BitVec.toNat_ofNat]
  omega

theorem and_argMask_tx (arg : Word) (pid : BitVec 8) (rep : BitVec 16) (value : BitVec 32) :
    arg &&& argMask (.tx pid rep value) = arg :=
  BitVec.and_allOnes

/-- A command's word decodes to it with every argument word that agrees with its own on the bits it reads. -/
theorem decode_encodeCmd {arg : Word} {i : Instr} (h : arg &&& argMask i = encodeArg i) :
    decode (encodeCmd i) arg = some i := by
  cases i with
  | tick => rfl
  | arm ticks => exact decode_arm ticks arg
  | passed => rfl
  | passed1 => rfl
  | resolve idx onoff => exact decode_resolve idx onoff arg
  | tx pid rep value =>
    rw [and_argMask_tx] at h
    subst h
    exact decode_tx pid rep _
  | send idx onoff rep =>
    have hrep : sendRepField arg = rep := by
      rw [← sendRepField_setWidth (sendRepField arg), ← and_argMask_send arg idx onoff rep, h]
      exact sendRepField_setWidth rep
    rw [encodeCmd_send, decode_send, ← sendRepField_eq_ofNat, hrep]

theorem decode_encode (i : Instr) : decode (encode i).1 (encode i).2 = some i := by
  refine decode_encodeCmd (i := i) (arg := encodeArg i) ?_
  cases i with
  | tick => exact Laws.ArgWordUsed.tick
  | arm ticks => exact Laws.ArgWordUsed.arm ticks
  | passed => exact Laws.ArgWordUsed.passed
  | passed1 => exact Laws.ArgWordUsed.passed1
  | resolve idx onoff => exact Laws.ArgWordUsed.resolve idx onoff
  | tx pid rep value => exact Laws.ArgWordUsed.tx pid rep value
  | send idx onoff rep => exact Laws.ArgWordUsed.send idx onoff rep

/-- What the decoder reads of `arg`, masked, is the command's argument word. -/
theorem and_argMask_of_decode {cmd arg : Word} {i : Instr} (h : decode cmd arg = some i) :
    arg &&& argMask i = encodeArg i := by
  unfold decode at h
  iterate 5
    obtain ⟨-, -, rfl⟩ | h := opcode_branch_eq_some h
    · exact BitVec.and_zero
  obtain ⟨-, -, rfl⟩ | h := opcode_branch_eq_some h
  · exact and_argMask_tx ..
  obtain ⟨-, -, rfl⟩ | h := opcode_branch_eq_some h
  · exact and_argMask_send ..
  cases h

/-- Settles O9: a word that decodes to the command is the same number as the command's own word, and the masks are what the
decoder reads of `arg`. -/
theorem decodeInvertsEncode : Obligations.DecodeInvertsEncode := by
  intro cmd arg i
  constructor
  · intro h
    have hcmd := (cmdNumber_of_decode h).trans (cmdNumber_of_decode (decode_encode i)).symm
    exact ⟨BitVec.eq_of_toNat_eq hcmd, and_argMask_of_decode h⟩
  · rintro ⟨rfl, harg⟩
    exact decode_encodeCmd harg

end Sys2Proof
end

section
/-! Words and lines at the edges of the decoder: a word of each command, the operand widths of the configuration
(spec 00_scope.md R5), and the lines of the assembler (30_encoding.md R69, R70). -/

namespace Sys2Proof

/-- Settles O12: each word is decoded by evaluation. -/
theorem wordsOfTheSpecDecode : Obligations.WordsOfTheSpecDecode := by
  refine ⟨?_, ?_, ?_, ?_, ?_, ?_, ?_⟩ <;> decide

/-! ### The configuration's operand widths -/

/-- Widths that no operand exceeds change no command. -/
theorem operandsAt_of_wide {c : Config} (hidx : 16 ≤ c.idxW) (honoff : 8 ≤ c.onoffW) (hpid : 8 ≤ c.pidW)
    (hrep : 16 ≤ c.repW) (i : Instr) : operandsAt c i = some i := by
  have fits {w k : Nat} (h : w ≤ k) (x : BitVec w) : x.toNat < 2 ^ k :=
    x.isLt.trans_le (Nat.pow_le_pow_right (by decide) h)
  cases i with
  | tick => rfl
  | arm ticks => rfl
  | passed => rfl
  | passed1 => rfl
  | resolve idx onoff => exact if_pos ⟨fits hidx idx, fits honoff onoff⟩
  | tx pid rep value => exact if_pos ⟨fits hpid pid, fits hrep rep⟩
  | send idx onoff rep =>
    rw [operandsAt, if_pos ⟨fits hidx idx, fits honoff onoff⟩, Nat.mod_eq_of_lt (fits hrep rep),
      BitVec.ofNat_toNat, BitVec.setWidth_eq]

end Sys2Proof

namespace Sys2Proof.Machine

/-- Settles O16: `decodeAt` of a legal word is `operandsAt` of its command, and each clause is one branch of that. -/
theorem operandWidthsOfTheConfiguration : Obligations.OperandWidthsOfTheConfiguration := by
  refine ⟨fun c cmd arg hidx honoff hpid hrep => ?_, fun c cmd arg => decodeAt_of_none, fun c cmd arg i hd => ?_⟩
  · cases hd : decode cmd arg with
    | none => exact decodeAt_of_none hd
    | some i => rw [decodeAt_of_some hd, operandsAt_of_wide hidx honoff hpid hrep]
  · rw [decodeAt_of_some hd]
    refine ⟨?_, ?_, ?_, ?_⟩
    · rintro (rfl | rfl | rfl | ⟨ticks, rfl⟩) <;> rfl
    · rintro idx onoff rfl
      exact ⟨fun hi ho => if_pos ⟨hi, ho⟩, fun h => if_neg (by omega)⟩
    · rintro pid rep value rfl
      exact ⟨fun hp hr => if_pos ⟨hp, hr⟩, fun h => if_neg (by omega)⟩
    · rintro idx onoff rep rfl
      refine ⟨fun hi ho => ⟨_, if_pos ⟨hi, ho⟩, ?_⟩, fun h => if_neg (by omega)⟩
      rw [BitVec.toNat_ofNat]
      exact Nat.mod_eq_of_lt ((Nat.mod_le _ _).trans_lt rep.isLt)

/-! ### The lines of the assembler -/

theorem fitsField_iff {w n : Nat} : fitsField w n = true ↔ n < 2 ^ w := by
  rw [fitsField, decide_eq_true_eq]

theorem fits_arm {n : Nat} : (Line.arm n).fits = true ↔ n < 2 ^ 16 :=
  fitsField_iff

theorem fits_resolve {n m : Nat} : (Line.resolve n m).fits = true ↔ n < 2 ^ 16 ∧ m < 2 ^ 8 := by
  rw [Line.fits, Bool.and_eq_true, fitsField_iff, fitsField_iff]

theorem fits_tx {n m k : Nat} : (Line.tx n m k).fits = true ↔ n < 2 ^ 8 ∧ m < 2 ^ 16 ∧ k < 2 ^ 32 := by
  rw [Line.fits, Bool.and_eq_true, Bool.and_eq_true, fitsField_iff, fitsField_iff, fitsField_iff]

theorem fits_send {n m k : Nat} : (Line.send n m k).fits = true ↔ n < 2 ^ 16 ∧ m < 2 ^ 8 ∧ k < 2 ^ 16 := by
  rw [Line.fits, Bool.and_eq_true, Bool.and_eq_true, fitsField_iff, fitsField_iff, fitsField_iff]

theorem fits_raw {n m : Nat} : (Line.raw n m).fits = true ↔ n < 2 ^ 32 ∧ m < 2 ^ 32 := by
  rw [Line.fits, Bool.and_eq_true, fitsField_iff, fitsField_iff]

theorem lineMoves_of_not_fits {l : Line} (s : State) (h : ¬ l.fits = true) : lineMoves s l = none :=
  if_neg h

/-- The command that a line issues, when it is one of the seven whose operands it gives. -/
def lineCommand : Line → Option Instr
  | .tick => some .tick
  | .arm ticks => some (.arm (BitVec.ofNat 16 ticks))
  | .passed => some .passed
  | .passed1 => some .passed1
  | .resolve idx onoff => some (.resolve (BitVec.ofNat 16 idx) (BitVec.ofNat 8 onoff))
  | .tx pid rep value => some (.tx (BitVec.ofNat 8 pid) (BitVec.ofNat 16 rep) (BitVec.ofNat 32 value))
  | .send idx onoff rep => some (.send (BitVec.ofNat 16 idx) (BitVec.ofNat 8 onoff) (BitVec.ofNat 16 rep))
  | .raw _ _ => none
  | .disarm => some (.arm 0)
  | .waitIdle => none
  | .waitDue => none
  | .waitTicks _ => none

theorem lineMoves_of_command {l : Line} {i : Instr} (s : State) (hfits : l.fits = true) (hi : lineCommand l = some i) :
    lineMoves s l = some [.command (encode i).1 (encode i).2] := by
  refine (if_pos hfits).trans ?_
  cases l with
  | raw c a => cases hi
  | waitIdle => cases hi
  | waitDue => cases hi
  | waitTicks n => cases hi
  | tick => cases hi; rfl
  | arm ticks => cases hi; rfl
  | passed => cases hi; rfl
  | passed1 => cases hi; rfl
  | resolve idx onoff => cases hi; rfl
  | tx pid rep value => cases hi; rfl
  | send idx onoff rep => cases hi; rfl
  | disarm => cases hi; rfl

/-- A literal that fits its field is the field's number. -/
theorem toNat_ofNat_of_fits {w n : Nat} (h : n < 2 ^ w) : (BitVec.ofNat w n).toNat = n := by
  rw [BitVec.toNat_ofNat, Nat.mod_eq_of_lt h]

/-- Settles O13: a line is accepted exactly when its operands fit, it issues its command's own word pair, and that decodes to
the command. -/
theorem assemblerKeepsOperands : Obligations.AssemblerKeepsOperands := by
  intro s
  refine ⟨⟨_, lineMoves_of_command s rfl rfl, decode_encode .tick⟩,
    ⟨_, lineMoves_of_command s rfl rfl, decode_encode .passed⟩,
    ⟨_, lineMoves_of_command s rfl rfl, decode_encode .passed1⟩, rfl,
    fun n => ⟨fun h => lineMoves_of_not_fits s (mt fits_arm.mp (by omega)), fun hn => ?arm⟩,
    fun n m => ⟨fun h => lineMoves_of_not_fits s (mt fits_resolve.mp (by omega)), fun hn hm => ?resolve⟩,
    fun n m k => ⟨fun h => lineMoves_of_not_fits s (mt fits_tx.mp (by omega)), fun hn hm hk => ?tx⟩,
    fun n m k => ⟨fun h => lineMoves_of_not_fits s (mt fits_send.mp (by omega)), fun hn hm hk => ?send⟩,
    fun n m => ⟨fun h => lineMoves_of_not_fits s (mt fits_raw.mp (by omega)),
      fun hn hm => if_pos (fits_raw.mpr ⟨hn, hm⟩)⟩, fun n => rfl⟩
  case arm =>
    exact ⟨_, _, lineMoves_of_command s (fits_arm.mpr hn) rfl, decode_encode (.arm _), toNat_ofNat_of_fits hn⟩
  case resolve =>
    exact ⟨_, _, _, lineMoves_of_command s (fits_resolve.mpr ⟨hn, hm⟩) rfl, decode_encode (.resolve _ _),
      toNat_ofNat_of_fits hn, toNat_ofNat_of_fits hm⟩
  case tx =>
    exact ⟨_, _, _, _, _, lineMoves_of_command s (fits_tx.mpr ⟨hn, hm, hk⟩) rfl, decode_encode (.tx _ _ _),
      toNat_ofNat_of_fits hn, toNat_ofNat_of_fits hm, toNat_ofNat_of_fits hk⟩
  case send =>
    exact ⟨_, _, _, _, _, lineMoves_of_command s (fits_send.mpr ⟨hn, hm, hk⟩) rfl, decode_encode (.send _ _ _),
      toNat_ofNat_of_fits hn, toNat_ofNat_of_fits hm, toNat_ofNat_of_fits hk⟩

/-! ### Text that the assembler accepts -/

/-- `readLine` answers at most one line, and only one that fits (R69). -/
theorem readLine_eq_some {text : List Char} {ls : List Line} (h : readLine text = some ls) :
    ls = [] ∨ ∃ l, ls = [l] ∧ l.fits = true := by
  unfold readLine at h
  dsimp only at h
  split at h
  · cases h
    exact .inl rfl
  split at h
  · cases h
  split at h
  · cases h
  next l _ =>
    split at h
    next hfits =>
      cases h
      exact .inr ⟨l, rfl, hfits⟩
    · cases h

theorem exists_lineMoves_of_fits {l : Line} (h : l.fits = true) (s : State) : ∃ ms, lineMoves s l = some ms := by
  cases l <;> exact ⟨_, if_pos h⟩

/-- Settles O14: an accepted line passed `Line.fits`, which bounds each of its operands. -/
theorem acceptedTextFits : Obligations.AcceptedTextFits := by
  intro text ls h
  obtain rfl | ⟨l, rfl, hfits⟩ := readLine_eq_some h
  · exact ⟨Nat.zero_le 1, fun l hl => absurd hl List.not_mem_nil⟩
  · refine ⟨Nat.le_refl 1, fun l' hl => ?_⟩
    obtain rfl := List.mem_singleton.mp hl
    refine ⟨exists_lineMoves_of_fits hfits, ?_, ?_, ?_, ?_, ?_⟩
    · rintro n rfl
      exact fits_arm.mp hfits
    · rintro n m rfl
      exact fits_resolve.mp hfits
    · rintro n m k rfl
      exact fits_tx.mp hfits
    · rintro n m k rfl
      exact fits_send.mp hfits
    · rintro n m rfl
      exact fits_raw.mp hfits

end Sys2Proof.Machine
end

section
/-! Deadlines and the runs that test them (spec 40_timer.md, 70_reset_and_hazards.md section I2): the predicate as a comparison
of forward distances, runs of counter steps, and what PASSED and PASSED1 answer after them. -/

namespace Sys2Proof.Machine

/-! ### The deadline as a distance -/

/-- R81's equivalent form: distances from the interval's start, modulo 65536. -/
theorem hasPassed_eq_distance (wv : WaitValue) (cur : Tick) :
    hasPassed wv cur = decide ((65536 + wv.endTick.toNat - wv.startTick.toNat) % 65536 ≤
      (65536 + cur.toNat - wv.startTick.toNat) % 65536) := by
  have hstart := wv.startTick.isLt
  have hend := wv.endTick.isLt
  have hcur := cur.isLt
  rw [hasPassed_eq_decide, decide_eq_decide]
  split <;> omega

/-- Settles O34: a tick is not passed exactly when its forward distance is below the interval's length. -/
theorem deadlineIsForwardDistance : Obligations.DeadlineIsForwardDistance := by
  intro wv cur
  have hstart := wv.startTick.isLt
  have hcur := cur.isLt
  refine ⟨hasPassed_eq_distance wv cur, ?_⟩
  rw [hasPassed_eq_distance, decide_eq_false_iff_not, Nat.not_le]
  constructor
  · intro hlt
    exact ⟨(65536 + cur.toNat - wv.startTick.toNat) % 65536, hlt, by omega⟩
  · rintro ⟨k, hk, hcur⟩
    omega

/-- The deadline that ARM writes, `e` counter steps later. -/
theorem hasPassed_deadlineAfter_add (now ticks : Tick) (e : Nat) :
    hasPassed (deadlineAfter now ticks) (now + BitVec.ofNat 16 e) = decide (ticks.toNat ≤ e % 65536) := by
  have hnow := now.isLt
  have hticks := ticks.isLt
  rw [hasPassed_eq_distance, decide_eq_decide, deadlineAfter, BitVec.toNat_add, BitVec.toNat_add, BitVec.toNat_ofNat]
  dsimp only
  omega

/-! ### Runs -/

theorem run_one {s t : State} (h : step s = .next t) : Sys2Proof.core.run 1 s = .next t := by
  rw [run_succ_of_next h, run_zero]

/-- A run of `e` counter steps. -/
theorem run_ticks {s : State} (hc : admitted s.cfg = true) (e : Nat) (rest : List Move) :
    Sys2Proof.core.run e { s with moves := List.replicate e .tick ++ rest } =
      .next { s with moves := rest, tick := s.tick + BitVec.ofNat 16 e } := by
  induction e generalizing s with
  | zero =>
    rw [run_zero, BitVec.add_zero]
    rfl
  | succ e ih =>
    have hstep := step_cons hc .tick (List.replicate e .tick ++ rest)
    have hnext := ih (s := { s with tick := s.tick + 1 }) hc
    have htick : s.tick + 1 + BitVec.ofNat 16 e = s.tick + BitVec.ofNat 16 (e + 1) := by
      rw [BitVec.add_assoc, BitVec.ofNat_add, BitVec.add_comm 1]
      rfl
    rw [List.replicate_succ, List.cons_append, run_succ_of_next hstep, ← htick]
    exact hnext

/-- A command at the front of the moves, whose words decode to `i`. -/
theorem step_command {s : State} {cmd arg : Word} {i : Instr} (hc : admitted s.cfg = true)
    (hd : decodeAt s.cfg cmd arg = some i) (rest : List Move) :
    step { s with moves := .command cmd arg :: rest } = exec i { s with moves := rest } :=
  (step_cons hc _ _).trans (commandStep_of_decodeAt_some (s := { s with moves := rest }) hd)

theorem decodeAt_arm (c : Config) (ticks : BitVec 16) (arg : Word) :
    decodeAt c (0x20000000#32 ||| ticks.setWidth 32) arg = some (.arm ticks) :=
  decodeAt_of_some (decode_arm ticks arg)

theorem decodeAt_passed (c : Config) (arg : Word) : decodeAt c 0x30000000#32 arg = some .passed := rfl

theorem decodeAt_passed1 (c : Config) (arg : Word) : decodeAt c 0x40000000#32 arg = some .passed1 := rfl

/-- A first move, `e` counter steps and a command, run one after the other. -/
theorem run_move_ticks_command {s u : State} {m : Move} {cmd arg : Word} {i : Instr} {e : Nat} {rest : List Move}
    (hm : step { s with moves := m :: (List.replicate e .tick ++ .command cmd arg :: rest) } =
      .next { u with moves := List.replicate e .tick ++ .command cmd arg :: rest })
    (hc : admitted u.cfg = true) (hd : decodeAt u.cfg cmd arg = some i) {t : State}
    (ht : exec i { u with moves := rest, tick := u.tick + BitVec.ofNat 16 e } = .next t) :
    Sys2Proof.core.run (e + 2) { s with moves := m :: (List.replicate e .tick ++ .command cmd arg :: rest) } =
      .next t := by
  rw [run_succ_of_next hm, run_add_of_next e 1 (run_ticks hc e _)]
  exact run_one ((step_command (s := { u with tick := u.tick + BitVec.ofNat 16 e }) hc hd rest).trans ht)

/-- Settles O35: PASSED tests the deadline that ARM wrote, `e` counter steps later. -/
theorem armThenPassedAfterTicks : Obligations.ArmThenPassedAfterTicks := by
  intro s ticks a b e rest hc
  let u : State := { s with
    toBlock := (s.toBlock.setWv (deadlineAfter s.tick ticks)).respond
      ⟨packWaitValue (deadlineAfter s.tick ticks), 0, false⟩ }
  refine ⟨_, run_move_ticks_command (u := u) (step_command hc (decodeAt_arm _ ticks a) _) hc
    (decodeAt_passed _ b) rfl, ?_, rfl, rfl, rfl⟩
  exact congrArg (fun flag => some (Response.mk 0 0 flag)) (hasPassed_deadlineAfter_add s.tick ticks e)

/-! ### ALWAYS -/

theorem Block.due_of_always {b : Block} (hwv : b.wv = .always) : b.due = true := by
  rw [Block.due, hwv, hasPassed_always]

/-- ALWAYS has passed at every tick, and PASSED1 writes it again (R25, R86). -/
theorem exec_passed1_of_always {s : State} (hwv : s.wv = .always) :
    exec .passed1 s = .next { s with toBlock := s.toBlock.respond ⟨0, 0, true⟩ } := by
  have hpassed : hasPassed s.wv s.tick = true := Block.due_of_always hwv
  rw [exec_passed1, hpassed, if_pos rfl, ← hwv]
  rfl

/-- Settles O36: of the three writers of the WaitValue only ARM writes anything but ALWAYS, and ALWAYS has passed at every
tick. -/
theorem alwaysIsAbsorbing : Obligations.AlwaysIsAbsorbing := by
  intro s hwv
  refine ⟨fun t ht hne => ?_, ?_, exec_passed1_of_always hwv⟩
  · obtain ⟨m, rest, hm, ⟨cmd, arg, ticks, rfl, hd, -⟩ | ⟨_, _, -, -, -, hw⟩ | ⟨-, hw⟩⟩ :=
      onlyThreeWritersOfTheWaitValue s t ht (hwv ▸ hne)
    · exact ⟨cmd, arg, rest, ticks, hm, hd⟩
    · exact absurd hw hne
    · exact absurd hw hne
  · rw [exec_passed, Block.due_of_always hwv]
    rfl

/-- Settles O37: the reset writes ALWAYS, which the counter's steps leave for PASSED1. -/
theorem firstPassedOnceAfterResetReports : Obligations.FirstPassedOnceAfterResetReports := by
  intro s k a rest hc
  let u : State := { s with toBlock := s.toBlock.resetTo s.cfg }
  have hreset (ms : List Move) : step { s with moves := .reset none :: ms } = .next { u with moves := ms } :=
    (step_cons hc _ _).trans (resetStep_of_admitted (s := { s with moves := ms }) (load := none) hc)
  refine ⟨_, run_move_ticks_command (u := u) (hreset _) hc (decodeAt_passed1 _ a) (exec_passed1_of_always rfl), rfl,
    rfl, ?_, rfl⟩
  show (s.tick + BitVec.ofNat 16 k).toNat = _
  rw [BitVec.toNat_add, BitVec.toNat_ofNat, Nat.add_mod_mod]

end Sys2Proof.Machine
end

section
/-! The invariant (spec 10_state.md R30, 20_memory.md R45): what the generator's registers must be under a configuration, which
`afterReset`, `start` and `step` all meet, and from it that no step but a bad load stops the block. -/

namespace Sys2Proof.Machine

/-! ### Valid registers -/

/-- The generator's part of the invariant: the registers fit their widths under `c`, and while busy its Encoding exists and
they are in the ranges of R30. -/
structure PulseGen.Valid (c : Config) (g : PulseGen) : Prop where
  rem_fits  : g.rem < 2 ^ c.durW
  bit_fits  : g.bit < 2 ^ c.bcW
  left_fits : g.left.toNat < 2 ^ c.repW
  pid_fits  : g.pid.toNat < 2 ^ c.pidW
  busy_ok   : g.phase ≠ .idle → ∃ e, readEnc c g.pid.toNat = some e ∧ g.InRange e

theorem State.inv_iff (s : State) : s.Inv ↔ admitted s.cfg = true ∧ s.pg.Valid s.cfg := by
  constructor
  · rintro ⟨hc, hrem, hbit, hleft, hpid, hbusy⟩
    exact ⟨hc, hrem, hbit, hleft, hpid, fun h => hbusy (s.toBlock.busy_eq_true.mpr h)⟩
  · rintro ⟨hc, hrem, hbit, hleft, hpid, hbusy⟩
    exact ⟨hc, hrem, hbit, hleft, hpid, fun h => hbusy (s.toBlock.busy_eq_true.mp h)⟩

/-- A free value cut to `w` bits stays below `2 ^ w` in a register of any other size. -/
theorem toNat_ofNat_mod_lt (k n w : Nat) : (BitVec.ofNat k (n % 2 ^ w)).toNat < 2 ^ w := by
  rw [BitVec.toNat_ofNat]
  exact (Nat.mod_le _ _).trans_lt (Nat.mod_lt n (Nat.two_pow_pos w))

theorem PulseGen.valid_afterReset (c : Config) (d : Nat) : (PulseGen.afterReset c d).Valid c where
  rem_fits := Nat.mod_lt _ (Nat.two_pow_pos _)
  bit_fits := Nat.mod_lt _ (Nat.two_pow_pos _)
  left_fits := toNat_ofNat_mod_lt ..
  pid_fits := toNat_ofNat_mod_lt ..
  busy_ok h := absurd rfl h

section
variable {c : Config} {e : Encoding} {tg : Bool} {g : PulseGen}

/-- Moving on from a position in range leaves the registers valid: `adv` keeps what `succ` keeps, and `rem` becomes a duration
of the table or stays. -/
theorem PulseGen.valid_moveTo_adv (hfits : encodingFits c e = true) (he : readEnc c g.pid.toNat = some e)
    (hrem : g.rem < 2 ^ c.durW) (hpid : g.pid.toNat < 2 ^ c.pidW) {p : Position} (hin : p.bitInRange e)
    (hbit : p.bit < 2 ^ c.bcW) (hleft : p.left.toNat < 2 ^ c.repW) (hle : p.left.toNat ≤ 65534) :
    (g.moveTo e g.val (adv e tg g.val p)).Valid c := by
  have hadv {P : Position → Prop} (hs : ∀ q, P q → P (succ e tg q)) (hp : P p) : P (adv e tg g.val p) :=
    adv_induct e tg g.val hs p hp
  have hqleft : (adv e tg g.val p).left.toNat ≤ p.left.toNat :=
    hadv (P := fun q => q.left.toNat ≤ p.left.toNat) (fun q hq => (succ_left_le e tg q).trans hq) (Nat.le_refl _)
  refine ⟨?_, hadv (P := fun q => q.bit < 2 ^ c.bcW) (succ_bit_lt e tg (bitCount_lt_of_fits e hfits)) hbit,
    hqleft.trans_lt hleft, hpid, fun hbusy => ⟨e, he, hadv (succ_bitInRange e tg) hin, g.moveTo_adv_rem_pos e tg p hbusy,
      (moveTo_rem_of_busy g e _ _ hbusy).le, hqleft.trans hle⟩⟩
  by_cases hidle : (adv e tg g.val p).phase = .idle
  · rw [moveTo_rem_of_idle g e _ _ hidle]
    exact hrem
  · rw [moveTo_rem_of_busy g e _ _ hidle]
    exact dur_lt_of_fits e _ hfits _

/-- `start` with an existing protocol and operands that fit (R128). -/
theorem PulseGen.valid_start (hfits : encodingFits c e = true) (hg : g.Valid c) {pid : BitVec 8} {rep : BitVec 16}
    (v : Word) (he : readEnc c pid.toNat = some e) (hpid : pid.toNat < 2 ^ c.pidW) (hrep : rep.toNat < 2 ^ c.repW)
    (h0 : rep ≠ 0) : (g.start e tg pid v rep).Valid c := by
  have hleft : (rep - 1).toNat + 1 = rep.toNat := by bv_omega
  have hlt := rep.isLt
  refine PulseGen.valid_moveTo_adv (g := { g with pid := pid, val := v }) hfits he hg.rem_fits hpid ?_
    (Nat.two_pow_pos _) (show (rep - 1).toNat < _ by omega) (show (rep - 1).toNat ≤ _ by omega)
  rintro (h | h) <;> cases h

/-- A busy generator's own step (R129). -/
theorem PulseGen.valid_step (hc : admitted c = true) (hg : g.Valid c) (hbusy : g.phase ≠ .idle)
    (he : readEnc c g.pid.toNat = some e) : (g.step e tg).Valid c := by
  have hfits := encodingFits_of_readEnc hc he
  obtain ⟨e', he', hbit, hpos, hle, hleft⟩ := hg.busy_ok hbusy
  obtain rfl : e' = e := Option.some.inj (he'.symm.trans he)
  unfold PulseGen.step
  split
  next hlong =>
    exact ⟨(Nat.sub_le _ _).trans_lt hg.rem_fits, hg.bit_fits, hg.left_fits, hg.pid_fits,
      fun _ => ⟨e', he, hbit, Nat.le_sub_one_of_lt hlong, (Nat.sub_le _ _).trans hle, hleft⟩⟩
  · have hsucc := succ_left_le e' tg g.position
    exact PulseGen.valid_moveTo_adv hfits he hg.rem_fits hg.pid_fits (succ_bitInRange e' tg g.position hbit)
      (succ_bit_lt e' tg (bitCount_lt_of_fits e' hfits) g.position hg.bit_fits) (hsucc.trans_lt hg.left_fits)
      (hsucc.trans hleft)

end

/-- The operands that a decoded command starts with fit their widths, as does the protocol of a switch (W4). -/
theorem transmits_operands_fit {c : Config} (hc : admitted c = true) {cmd arg : Word} {i : Instr} {pid : BitVec 8}
    {v : Word} {rep : BitVec 16} (hd : decodeAt c cmd arg = some i) (hi : Transmits c i pid v rep) :
    pid.toNat < 2 ^ c.pidW ∧ rep.toNat < 2 ^ c.repW := by
  obtain rfl | ⟨idx, onoff, rfl, hr⟩ := hi
  · exact tx_operands_fit hd
  · obtain ⟨x, hx, -, rfl, -⟩ := resolve_eq_found hr
    exact ⟨protocolId_lt hc hx, send_rep_fits hd⟩

/-! ### Loading a configuration -/

theorem resetStep_of_not_admitted {s : State} {load : Option Config} (h : admitted (load.getD s.cfg) = false) :
    resetStep load s = .refused .configNotAdmitted := by
  rw [resetStep, loadedConfig_eq_getD, if_neg (by simp [h])]

theorem powerOnStep_of_not_admitted {s : State} {c : Config} {t0 : Tick} (h : admitted c = false) :
    powerOnStep c t0 s = .refused .configNotAdmitted := by
  rw [powerOnStep, if_neg (by simp [h])]

/-! ### Each move keeps the invariant -/

section
variable {s t : State}

theorem State.Inv.valid (h : s.Inv) : s.pg.Valid s.cfg :=
  (s.inv_iff.mp h).2

/-- The invariant speaks of the configuration and the generator alone. -/
theorem State.Inv.of_eq (h : s.Inv) (hcfg : t.cfg = s.cfg) (hpg : t.pg = s.pg) : t.Inv := by
  rw [State.inv_iff, hcfg, hpg]
  exact s.inv_iff.mp h

theorem State.Inv.of_steppedTo (h : s.Inv) (hcfg : t.cfg = s.cfg) (hpg : PulseGen.SteppedTo s.cfg s.pg t.pg) :
    t.Inv := by
  obtain ⟨hbusy, e, he, hg⟩ := hpg
  rw [State.inv_iff, hcfg, hg]
  exact ⟨h.cfg_admitted, PulseGen.valid_step h.cfg_admitted h.valid hbusy he⟩

theorem State.Inv.of_commandStep {cmd arg : Word} (hs : s.Inv) (h : commandStep cmd arg s = .next t) : t.Inv := by
  have hc := hs.cfg_admitted
  have hcfg := commandStep_cfg h
  by_cases hpg : t.pg = s.pg
  · exact hs.of_eq hcfg hpg
  · obtain ⟨i, hd, -, pid, v, rep, e, hi, hrep, he, hg⟩ := commandStep_changes_pg h hpg
    obtain ⟨hpid, hfit⟩ := transmits_operands_fit hc hd hi
    rw [State.inv_iff, hcfg, hg]
    exact ⟨hc, PulseGen.valid_start (encodingFits_of_readEnc hc he) hs.valid v he hpid hfit hrep⟩

theorem State.Inv.of_pulseStep (hs : s.Inv) (h : pulseStep s = .next t) : t.Inv := by
  have hcfg : t.cfg = s.cfg := by obtain ⟨g, rfl⟩ := pulseStep_next h; rfl
  by_cases hpg : t.pg = s.pg
  · exact hs.of_eq hcfg hpg
  · exact hs.of_steppedTo hcfg (pulseStep_changes_pg h hpg)

theorem State.Inv.of_moveStep {m : Move} (hs : s.Inv) (h : moveStep m s = .next t) : t.Inv := by
  cases m with
  | command cmd arg => exact State.Inv.of_commandStep hs h
  | tick => cases h; exact hs.of_eq rfl rfl
  | pulse => exact State.Inv.of_pulseStep hs h
  | reset load =>
    cases hl : admitted (load.getD s.cfg) with
    | true => cases resetStep_next h; exact (State.inv_iff _).mpr ⟨hl, PulseGen.valid_afterReset _ _⟩
    | false => cases (resetStep_of_not_admitted hl).symm.trans h
  | powerOn c t0 =>
    cases hl : admitted c with
    | true => cases powerOnStep_next h; exact (State.inv_iff _).mpr ⟨hl, PulseGen.valid_afterReset _ _⟩
    | false => cases (powerOnStep_of_not_admitted hl).symm.trans h

theorem State.Inv.of_unscheduledStep (hs : s.Inv) (h : unscheduledStep s = .next t) : t.Inv := by
  have hcfg := unscheduledStep_cfg h
  by_cases hpg : t.pg = s.pg
  · exact hs.of_eq hcfg hpg
  · exact hs.of_steppedTo hcfg (unscheduledStep_changes_pg h hpg)

end

/-- Settles O31: a step is one move or an agent's step with no move scheduled, and each keeps the invariant. -/
theorem everyStepKeepsTheInvariant : Obligations.EveryStepKeepsTheInvariant := by
  intro s t hs h
  obtain ⟨-, ⟨-, hu⟩ | ⟨m, rest, -, hx⟩⟩ := step_next h
  · exact hs.of_unscheduledStep hu
  · exact State.Inv.of_moveStep (hs.of_eq (t := { s with moves := rest }) rfl rfl) hx

/-- Settles O30: the tables are empty, so W1 to W4 hold, and the registers are those of `afterReset`. -/
theorem resetMeetsTheInvariant : Obligations.ResetMeetsTheInvariant :=
  (State.inv_iff _).mpr ⟨rfl, PulseGen.valid_afterReset Config.unloaded 0⟩

/-! ### Every move is answered -/

theorem pulseStep_of_idle {s : State} (hidle : s.pg.phase = .idle) : pulseStep s = .next s :=
  State.onBlock_of_next (if_pos hidle)

theorem pulseStep_of_busy {s : State} {e : Encoding} (hbusy : s.pg.phase ≠ .idle)
    (he : readEnc s.cfg s.pg.pid.toNat = some e) :
    pulseStep s = .next { s with toBlock := s.toBlock.setPg (s.pg.step e s.cfg.trailingGap) } :=
  State.onBlock_of_next (by rw [blockPulse, if_neg hbusy, he])

/-- The end of a pulse unit writes the registers, from the configuration and the registers alone. -/
theorem State.Inv.exists_pulseStep {s : State} (h : s.Inv) :
    ∃ g, ∀ u : State, u.cfg = s.cfg → u.pg = s.pg → pulseStep u = .next { u with toBlock := u.toBlock.setPg g } := by
  by_cases hidle : s.pg.phase = .idle
  · refine ⟨s.pg, fun u _ hpg => ?_⟩
    rw [← hpg]
    exact pulseStep_of_idle (hpg ▸ hidle)
  · obtain ⟨e, he, -⟩ := h.valid.busy_ok hidle
    refine ⟨s.pg.step e s.cfg.trailingGap, fun u hcfg hpg => ?_⟩
    rw [← hcfg, ← hpg] at he ⊢
    exact pulseStep_of_busy (hpg ▸ hidle) he

/-- Under an admitted configuration no command stops the block (60_exceptions.md R152). -/
theorem exists_exec {s : State} (hc : admitted s.cfg = true) (i : Instr) : ∃ t, exec i s = .next t := by
  by_cases hidle : s.pg.phase = .idle
  · cases i with
    | tick => exact ⟨_, rfl⟩
    | arm ticks => exact ⟨_, rfl⟩
    | passed => exact ⟨_, rfl⟩
    | passed1 => exact ⟨_, rfl⟩
    | resolve idx onoff => exact ⟨_, rfl⟩
    | tx pid rep v =>
      obtain hpid | hpid := Nat.lt_or_ge pid.toNat s.cfg.enc.length
      · obtain ⟨t, ht, -⟩ := exec_tx_of_idle hidle hpid rep v
        exact ⟨t, ht⟩
      · exact ⟨_, exec_tx_of_bad_pid hidle hpid rep v⟩
    | send idx onoff rep =>
      obtain ⟨t, ht, -⟩ := exec_send_of_idle hidle hc idx onoff rep
      exact ⟨t, ht⟩
  · exact exec_of_busy hidle i

theorem exists_commandStep {s : State} (hc : admitted s.cfg = true) (cmd arg : Word) :
    ∃ t, commandStep cmd arg s = .next t := by
  cases hd : decodeAt s.cfg cmd arg with
  | none => exact ⟨_, commandStep_of_decodeAt_none hd⟩
  | some i => rw [commandStep_of_decodeAt_some hd]; exact exists_exec hc i

theorem State.Inv.exists_unscheduledStep {s : State} (h : s.Inv) : ∃ t, unscheduledStep s = .next t := by
  obtain ⟨-, hx⟩ | ⟨-, -, hx⟩ | ⟨k, -, -, hx⟩ := unscheduledStep_cases s
  · exact ⟨_, hx⟩
  · obtain ⟨g, hg⟩ := h.exists_pulseStep
    exact ⟨_, hx.trans (hg s.drawTurns rfl rfl)⟩
  · exact ⟨_, hx⟩

/-- The move would load a configuration that fails W1 to W4. -/
def Move.LoadsBad (m : Move) (c : Config) : Prop :=
  admitted c = false ∧ (m = .reset (some c) ∨ ∃ t0, m = .powerOn c t0)

theorem Move.LoadsBad.moveStep_eq {m : Move} {c : Config} (h : m.LoadsBad c) (s : State) :
    moveStep m s = .refused .configNotAdmitted := by
  obtain ⟨hc, rfl | ⟨t0, rfl⟩⟩ := h
  · exact resetStep_of_not_admitted hc
  · exact powerOnStep_of_not_admitted hc

theorem State.Inv.exists_moveStep {s : State} (h : s.Inv) (m : Move) :
    (∃ t, moveStep m s = .next t) ∨ ∃ c, m.LoadsBad c := by
  cases m with
  | command cmd arg => exact .inl (exists_commandStep h.cfg_admitted cmd arg)
  | tick => exact .inl ⟨_, rfl⟩
  | pulse =>
    obtain ⟨g, hg⟩ := h.exists_pulseStep
    exact .inl ⟨_, hg s rfl rfl⟩
  | reset load =>
    cases load with
    | none => exact .inl ⟨_, resetStep_of_admitted (load := none) h.cfg_admitted⟩
    | some c =>
      cases hc : admitted c with
      | true => exact .inl ⟨_, resetStep_of_admitted (load := some c) hc⟩
      | false => exact .inr ⟨c, hc, .inl rfl⟩
  | powerOn c t0 =>
    cases hc : admitted c with
    | true => exact .inl ⟨_, powerOnStep_of_admitted hc⟩
    | false => exact .inr ⟨c, hc, .inr ⟨t0, rfl⟩⟩

/-- Settles O32: the invariant gives a busy generator its Encoding, and W2 gives SEND's switch one, so only a load is left to
refuse. -/
theorem noStepStopsTheBlock : Obligations.NoStepStopsTheBlock := by
  intro s hs
  have hc := hs.cfg_admitted
  cases hm : s.moves with
  | nil =>
    obtain ⟨t, ht⟩ := hs.exists_unscheduledStep
    exact .inl ⟨t, (step_of_no_moves hc hm).trans ht⟩
  | cons m rest =>
    obtain ⟨t, ht⟩ | ⟨c, hbad⟩ := (hs.of_eq (t := { s with moves := rest }) rfl rfl).exists_moveStep m
    · exact .inl ⟨t, (step_of_moves hc hm).trans ht⟩
    · obtain ⟨hcb, hmove⟩ := hbad
      refine .inr ⟨c, rest, hcb, ?_, (step_of_moves hc hm).trans (Move.LoadsBad.moveStep_eq ⟨hcb, hmove⟩ _)⟩
      obtain rfl | ⟨t0, rfl⟩ := hmove
      · exact .inl rfl
      · exact .inr ⟨t0, rfl⟩

/-! ### Which configurations are admitted -/

theorem checkW1_iff (c : Config) : checkW1 c = true ↔ c.enc.length ≤ 256 ∧ c.sw.length ≤ 65535 := by
  rw [checkW1, Bool.and_eq_true, decide_eq_true_eq, decide_eq_true_eq]

theorem checkW2_iff (c : Config) : checkW2 c = true ↔ ∀ x ∈ c.sw, x.protocolId.toNat < c.enc.length := by
  rw [checkW2, List.all_eq_true]
  simp only [decide_eq_true_eq]

theorem patternFits_iff (n : Nat) (v : Word) : patternFits n v = true ↔ 32 ≤ n ∨ v.toNat < 2 ^ n := by
  rw [patternFits, Bool.or_eq_true, decide_eq_true_eq, decide_eq_true_eq]

theorem checkW3_iff (c : Config) : checkW3 c = true ↔ ∀ x ∈ c.sw, ∀ e, c.enc[x.protocolId.toNat]? = some e →
    (32 ≤ e.bitCount ∨ x.off.toNat < 2 ^ e.bitCount) ∧ (32 ≤ e.bitCount ∨ x.on.toNat < 2 ^ e.bitCount) := by
  rw [checkW3, List.all_eq_true]
  refine forall₂_congr fun x _ => ?_
  rw [readEnc]
  cases c.enc[x.protocolId.toNat]? with
  | none => simp
  | some e => simp [patternFits_iff]

theorem encodingFits_iff (c : Config) (e : Encoding) : encodingFits c e = true ↔
    e.bitCount < 2 ^ c.bcW ∧ e.gap < 2 ^ c.durW ∧ e.preambleHigh < 2 ^ c.durW ∧ e.preambleLow < 2 ^ c.durW ∧
      e.sym0.high < 2 ^ c.durW ∧ e.sym0.low < 2 ^ c.durW ∧ e.sym1.high < 2 ^ c.durW ∧ e.sym1.low < 2 ^ c.durW := by
  simp only [encodingFits, List.all_cons, List.all_nil, Bool.and_true, Bool.and_eq_true, decide_eq_true_eq]
  exact and_comm

theorem checkW4_iff (c : Config) : checkW4 c = true ↔
    (∀ e ∈ c.enc, encodingFits c e = true) ∧ ∀ x ∈ c.sw, x.protocolId.toNat < 2 ^ c.pidW := by
  rw [checkW4, Bool.and_eq_true, List.all_eq_true, List.all_eq_true]
  simp only [decide_eq_true_eq]

/-- Settles O29: `admitted` is its four checks, `step` looks at it first, and a load at that of the configuration it loads. -/
theorem onlyAdmittedConfigurationsRun : Obligations.OnlyAdmittedConfigurationsRun := by
  refine ⟨fun c => ?_, fun s => step_of_not_admitted, fun s c rest hc => ?_⟩
  · simp only [admitted, Bool.and_eq_true, checkW1_iff, checkW2_iff, checkW3_iff, checkW4_iff, encodingFits_iff]
    tauto
  · have hbad {m : Move} (hm : s.moves = m :: rest) (h : m.LoadsBad c) : step s = .refused .configNotAdmitted := by
      cases hs : admitted s.cfg with
      | true => exact (step_of_moves hs hm).trans (h.moveStep_eq _)
      | false => exact step_of_not_admitted hs
    exact ⟨fun hm => hbad hm ⟨hc, .inl rfl⟩, fun t0 hm => hbad hm ⟨hc, .inr ⟨t0, rfl⟩⟩⟩

end Sys2Proof.Machine
end

section
/-! Single steps, written out (spec 42_pulse.md R129, 60_exceptions.md R161, 92_eei_decisions.md D30): the generator's step, the
agents' steps with no move scheduled, and what the commands answer when they run twice or in one another's place. -/

namespace Sys2Proof.Machine

/-! ### The generator's step and the counter's -/

/-- Settles O44: a busy generator makes `PulseGen.step`, whose two branches are the two clauses. -/
theorem generatorStepEndsOnePulseUnit : Obligations.GeneratorStepEndsOnePulseUnit := by
  intro s e rest hc hm hbusy he p
  have hstep : step s = .next { s with
      toBlock := s.toBlock.setPg (s.pg.step e s.cfg.trailingGap), moves := rest } :=
    (step_of_moves hc hm).trans (pulseStep_of_busy (s := { s with moves := rest }) hbusy he)
  refine ⟨fun hlong => ?_, fun hlast => ?_⟩
  · rw [hstep, PulseGen.step, if_pos hlong]
    rfl
  · rw [hstep, PulseGen.step, if_neg (Nat.not_lt.mpr hlast)]
    rfl

/-- Settles O45: an IDLE generator has no step. -/
theorem pulseWhileIdleChangesNothing : Obligations.PulseWhileIdleChangesNothing := by
  intro s rest hc hm hidle
  rw [Block.busy_eq_false] at hidle
  exact (step_of_moves hc hm).trans (pulseStep_of_idle (s := { s with moves := rest }) hidle)

/-- Settles O23: the three clauses are the three cases of a step with no move scheduled. -/
theorem unscheduledStepIsAnAgentsStep : Obligations.UnscheduledStepIsAnAgentsStep := by
  intro s hs hm
  rw [step_of_no_moves hs.cfg_admitted hm, Block.busy_eq_true, Block.busy_eq_false]
  obtain ⟨hidle, hx⟩ | ⟨hbusy, h0, hx⟩ | ⟨k, hbusy, hk, hx⟩ := unscheduledStep_cases s
  · exact ⟨fun _ => hx, fun _ h => absurd hidle h, fun h => absurd hidle h⟩
  · obtain ⟨e, he, -⟩ := hs.valid.busy_ok hbusy
    refine ⟨fun h => absurd h hbusy, fun k _ hk => by omega, fun _ _ => ⟨e, Config.freeTurns s.draws, he, ?_⟩⟩
    exact hx.trans (pulseStep_of_busy (s := s.drawTurns) hbusy he)
  · refine ⟨fun h => absurd h hbusy, fun j _ hj => ?_, fun _ h0 => by omega⟩
    obtain rfl : k = j := by omega
    exact hx

/-- Settles O26: the two steps write different registers, and the generator's does not read the counter. -/
theorem tickAndPulseCommute : Obligations.TickAndPulseCommute := by
  intro s rest hs
  have hc := hs.cfg_admitted
  obtain ⟨g, hg⟩ := hs.exists_pulseStep
  have htick (u : State) (hu : admitted u.cfg = true) (ms : List Move) :
      step { u with moves := .tick :: ms } = .next { u with moves := ms, tick := u.tick + 1 } := step_cons hu _ _
  have hpulse (u : State) (hcfg : u.cfg = s.cfg) (hpg : u.pg = s.pg) (ms : List Move) :
      step { u with moves := .pulse :: ms } = .next { u with toBlock := u.toBlock.setPg g, moves := ms } :=
    (step_cons (hcfg ▸ hc) _ _).trans (hg { u with moves := ms } hcfg hpg)
  refine ⟨{ s with tick := s.tick + 1, pg := g, moves := rest }, ?_, ?_, rfl⟩
  · rw [run_succ_of_next (htick s hc _)]
    exact run_one (hpulse { s with tick := s.tick + 1 } rfl rfl rest)
  · rw [run_succ_of_next (hpulse s rfl rfl _)]
    exact run_one (htick { s with pg := g } hc rest)

/-! ### The reset state -/

/-- Settles O27: the block is IDLE under ALWAYS, and the outputs follow. -/
theorem resetStateOfTheSpec : Obligations.ResetStateOfTheSpec := by
  intro g t0 hg s
  obtain ⟨hrf, hbusy, hdue⟩ := Block.outputs_of_idle_always (b := s.toBlock) rfl hg
  exact ⟨rfl, rfl, rfl, hrf, hbusy, hdue, rfl⟩

/-! ### Commands -/

/-- Settles O17: the step makes the transaction, and that runs what `decodeAt` gives. -/
theorem stepRunsTheDecodedCommand : Obligations.StepRunsTheDecodedCommand := by
  intro s cmd arg rest i hc hm hd
  exact (step_of_moves hc hm).trans (commandStep_of_decodeAt_some (s := { s with moves := rest }) hd)

/-- Settles O38: each answer is computed from what the command leaves alone. -/
theorem readOnlyCommandsAreIdempotent : Obligations.ReadOnlyCommandsAreIdempotent := by
  rintro s i (rfl | rfl | ⟨idx, onoff, rfl⟩)
  · exact ⟨_, _, exec_tick s, rfl, rfl⟩
  · exact ⟨_, _, exec_passed s, rfl, rfl⟩
  · exact ⟨_, _, exec_resolve idx onoff s, rfl, rfl⟩

theorem resolve_congr {c d : Config} (h : c.sw = d.sw) (idx : BitVec 16) (onoff : BitVec 8) :
    resolve c idx onoff = resolve d idx onoff := by
  unfold resolve readSw nSwitch
  rw [h]

/-- Settles O39: `resolve` reads no other part of the configuration. -/
theorem resolveReadsOnlyTheSwitchTable : Obligations.ResolveReadsOnlyTheSwitchTable := by
  intro s t idx onoff h
  refine ⟨_, _, exec_resolve idx onoff s, exec_resolve idx onoff t, ?_⟩
  rw [resolve_congr h]
  rfl

/-- Where RESOLVE answers flag 1 it answers what `resolve` found (41_registry.md R102). -/
theorem resolve_of_flag {c : Config} {idx : BitVec 16} {onoff : BitVec 8}
    (h : (resolveResponse (resolve c idx onoff)).flag = true) :
    resolve c idx onoff =
      .found (resolveResponse (resolve c idx onoff)).aux (resolveResponse (resolve c idx onoff)).data := by
  cases hr : resolve c idx onoff with
  | found pid v => rfl
  | notFound => rw [hr] at h; cases h

/-- Settles O8: on a found switch, whose Encoding exists by W2, both commands record Busy, do nothing, or start the same
transmission. -/
theorem sendIsResolveThenTx : Obligations.SendIsResolveThenTx := by
  intro s r idx onoff rep a hc hx ha hflag
  rw [exec_resolve] at hx
  cases hx
  cases ha
  have hr := resolve_of_flag hflag
  obtain ⟨e, he⟩ := execSend_never_faults hc hr
  by_cases hidle : s.pg.phase = .idle
  · by_cases hrep : rep = 0
    · rw [exec_send_of_nothing hidle (.inr hrep), exec_tx_of_encoding hidle he, hrep]
      rfl
    · rw [exec_of_transmits hidle (.inr ⟨idx, onoff, rfl, hr⟩) hrep he, exec_of_transmits hidle (.inl rfl) hrep he]
  · rw [exec_send_of_busy hidle, exec_tx_of_busy hidle]

/-! ### The worked example -/

/-- Settles O51: both sides are evaluated. -/
theorem workedExampleWaveform : Obligations.WorkedExampleWaveform := by
  constructor <;> decide

end Sys2Proof.Machine
end

section
/-! The registers of an idle generator (spec 10_state.md R36, 93_implementation_defined.md I8): two states that agree but for
them answer every step alike, because an idle generator has no step, a reset and `start` write its registers, and nothing else
reads them. -/

namespace Sys2Proof.Machine

/-! ### States that agree -/

/-- The state with other generator registers. -/
def State.withPg (s : State) (g : PulseGen) : State :=
  { s with toBlock := s.toBlock.setPg g }

theorem State.Agree.refl (s : State) : s.Agree s :=
  ⟨rfl, rfl, rfl, rfl, rfl, rfl, rfl, rfl, rfl, fun _ => rfl⟩

theorem State.agree_withPg {s : State} {g : PulseGen} (hs : s.pg.phase = .idle) (hg : g.phase = .idle) :
    s.Agree (s.withPg g) :=
  ⟨rfl, rfl, rfl, rfl, hs.trans hg.symm, rfl, rfl, rfl, rfl, fun h => absurd hs (s.toBlock.busy_eq_true.mp h)⟩

/-- Agreeing states are equal, or they are idle and differ in the generator's registers only. -/
theorem State.Agree.eq_or_idle {s t : State} (h : s.Agree t) :
    s = t ∨ s.pg.phase = .idle ∧ t.pg.phase = .idle ∧ t = s.withPg t.pg := by
  obtain ⟨⟨tick, wv, fault, pg, resp, draws⟩, cfg, moves, turns⟩ := s
  obtain ⟨⟨tick', wv', fault', pg', resp', draws'⟩, cfg', moves', turns'⟩ := t
  obtain ⟨hcfg, htick, hwv, hfault, hphase, hresp, hmoves, hturns, hdraws, hpg⟩ := h
  dsimp only at hcfg htick hwv hfault hphase hresp hmoves hturns hdraws
  subst hcfg htick hwv hfault hresp hmoves hturns hdraws
  by_cases hidle : pg.phase = .idle
  · exact .inr ⟨hidle, hphase ▸ hidle, rfl⟩
  · obtain rfl : pg = pg' := hpg ((Block.busy_eq_true _).mpr hidle)
    exact .inl rfl

theorem State.Agree.outputs {s t : State} (h : s.Agree t) :
    s.busy = t.busy ∧ s.due = t.due ∧ s.rfOut = t.rfOut ∧ s.faultCode = t.faultCode := by
  obtain ⟨-, htick, hwv, hfault, hphase, -⟩ := h
  refine ⟨?_, ?_, ?_, ?_⟩
  · rw [Block.busy, Block.busy, hphase]
  · rw [Block.due, Block.due, hwv, htick]
  · rw [Block.rfOut, Block.rfOut, hphase]
  · rw [Block.faultCode, Block.faultCode, hfault]

/-! ### Outcomes that agree -/

/-- The two outcomes are the same but for the registers of an idle generator. -/
inductive OutcomesAgree : Host.Outcome State Fault Refusal → Host.Outcome State Fault Refusal → Prop
  | next {s t : State} (h : s.Agree t) : OutcomesAgree (.next s) (.next t)
  | fault (r : Fault) : OutcomesAgree (.fault r) (.fault r)
  | refused (r : Refusal) : OutcomesAgree (.refused r) (.refused r)

theorem OutcomesAgree.refl (o : Host.Outcome State Fault Refusal) : OutcomesAgree o o := by
  cases o with
  | next s => exact .next (.refl s)
  | fault r => exact .fault r
  | refused r => exact .refused r

theorem OutcomesAgree.of_next {s : State} {o : Host.Outcome State Fault Refusal} (h : OutcomesAgree (.next s) o) :
    ∃ t, o = .next t ∧ s.Agree t := by
  cases h with
  | next hagree => exact ⟨_, rfl, hagree⟩

theorem OutcomesAgree.of_fault {r : Fault} {o : Host.Outcome State Fault Refusal} (h : OutcomesAgree (.fault r) o) :
    o = .fault r := by
  cases h
  rfl

theorem OutcomesAgree.of_refused {r : Refusal} {o : Host.Outcome State Fault Refusal}
    (h : OutcomesAgree (.refused r) o) : o = .refused r := by
  cases h
  rfl

/-! ### The steps of an idle generator's state -/

/-- A generator that `start` makes busy has every register from the operands (42_pulse.md R128). -/
theorem PulseGen.start_eq_of_busy {g : PulseGen} {e : Encoding} {tg : Bool} {pid : BitVec 8} {v : Word} {rep : BitVec 16}
    (h : (g.start e tg pid v rep).phase ≠ .idle) (g' : PulseGen) :
    g.start e tg pid v rep = g'.start e tg pid v rep := by
  simp only [PulseGen.start, PulseGen.moveTo_phase] at h
  simp only [PulseGen.start, PulseGen.moveTo, h, if_false]

section
variable {s : State} {g : PulseGen} (hs : s.pg.phase = .idle) (hg : g.phase = .idle)

theorem State.agree_start (e : Encoding) (tg : Bool) (pid : BitVec 8) (v : Word) (rep : BitVec 16) (r : Response) :
    State.Agree { s with toBlock := (s.toBlock.start e tg pid v rep).respond r }
      { s.withPg g with toBlock := ((s.withPg g).toBlock.start e tg pid v rep).respond r } :=
  ⟨rfl, rfl, rfl, rfl, rfl, rfl, rfl, rfl, rfl, fun h => PulseGen.start_eq_of_busy ((Block.busy_eq_true _).mp h) g⟩

include hs hg

theorem exec_tx_withPg (pid : BitVec 8) (rep : BitVec 16) (v : BitVec 32) :
    OutcomesAgree (exec (.tx pid rep v) s) (exec (.tx pid rep v) (s.withPg g)) := by
  cases he : s.cfg.enc[pid.toNat]? with
  | none =>
    have hpid := List.getElem?_eq_none_iff.mp he
    rw [exec_tx_of_bad_pid hs hpid, exec_tx_of_bad_pid (s := s.withPg g) hg hpid]
    exact .next (State.agree_withPg (s := { s with toBlock := s.toBlock.raiseFault .badProtocolId }) hs hg)
  | some e =>
    rw [exec_tx_of_encoding hs he, exec_tx_of_encoding (s := s.withPg g) hg he]
    by_cases hrep : 0 < rep.toNat
    · rw [if_pos hrep, if_pos hrep]
      exact .next (State.agree_start ..)
    · rw [if_neg hrep, if_neg hrep]
      exact .next (State.agree_withPg (s := { s with toBlock := s.toBlock.respond .zero }) hs hg)

theorem exec_send_withPg (hc : admitted s.cfg = true) (idx : BitVec 16) (onoff : BitVec 8) (rep : BitVec 16) :
    OutcomesAgree (exec (.send idx onoff rep) s) (exec (.send idx onoff rep) (s.withPg g)) := by
  by_cases hnone : resolve s.cfg idx onoff = .notFound ∨ rep = 0
  · rw [exec_send_of_nothing hs hnone, exec_send_of_nothing (s := s.withPg g) hg hnone]
    exact .next (State.agree_withPg (s := { s with toBlock := s.toBlock.respond .zero }) hs hg)
  · obtain ⟨hfound, hrep⟩ := not_or.mp hnone
    cases hr : resolve s.cfg idx onoff with
    | notFound => exact absurd hr hfound
    | found pid v =>
      obtain ⟨e, he⟩ := execSend_never_faults hc hr
      rw [exec_send_of_found hs hr hrep he, exec_send_of_found (s := s.withPg g) hg hr hrep he]
      exact .next (State.agree_start ..)

theorem exec_withPg (hc : admitted s.cfg = true) (i : Instr) : OutcomesAgree (exec i s) (exec i (s.withPg g)) := by
  cases i with
  | tick => exact .next (State.agree_withPg hs hg)
  | arm ticks => exact .next (State.agree_withPg hs hg)
  | passed => exact .next (State.agree_withPg hs hg)
  | passed1 => exact .next (State.agree_withPg hs hg)
  | resolve idx onoff => exact .next (State.agree_withPg hs hg)
  | tx pid rep v => exact exec_tx_withPg hs hg pid rep v
  | send idx onoff rep => exact exec_send_withPg hs hg hc idx onoff rep

theorem moveStep_withPg (hc : admitted s.cfg = true) (m : Move) :
    OutcomesAgree (moveStep m s) (moveStep m (s.withPg g)) := by
  cases m with
  | command cmd arg =>
    show OutcomesAgree (commandStep cmd arg s) (commandStep cmd arg (s.withPg g))
    cases hd : decodeAt s.cfg cmd arg with
    | none =>
      rw [commandStep_of_decodeAt_none hd, commandStep_of_decodeAt_none (s := s.withPg g) hd]
      exact .next (State.agree_withPg (s := { s with toBlock := s.toBlock.raiseFault .illegalCommand }) hs hg)
    | some i =>
      rw [commandStep_of_decodeAt_some hd, commandStep_of_decodeAt_some (s := s.withPg g) hd]
      exact exec_withPg hs hg hc i
  | tick => exact .next (State.agree_withPg hs hg)
  | pulse =>
    show OutcomesAgree (pulseStep s) (pulseStep (s.withPg g))
    rw [pulseStep_of_idle hs, pulseStep_of_idle (s := s.withPg g) hg]
    exact .next (State.agree_withPg hs hg)
  | reset load => exact .refl (resetStep load s)
  | powerOn c t0 => exact .refl (powerOnStep c t0 s)

theorem unscheduledStep_withPg : OutcomesAgree (unscheduledStep s) (unscheduledStep (s.withPg g)) := by
  rw [unscheduledStep, unscheduledStep, if_pos hs, if_pos (show (s.withPg g).pg.phase = .idle from hg)]
  exact .next (State.agree_withPg hs hg)

theorem step_withPg : OutcomesAgree (step s) (step (s.withPg g)) := by
  cases hc : admitted s.cfg with
  | false =>
    rw [step_of_not_admitted hc, step_of_not_admitted (s := s.withPg g) hc]
    exact .refused _
  | true =>
    cases hm : s.moves with
    | nil =>
      rw [step_of_no_moves hc hm, step_of_no_moves (s := s.withPg g) hc hm]
      exact unscheduledStep_withPg hs hg
    | cons m rest =>
      rw [step_of_moves hc hm, step_of_moves (s := s.withPg g) hc hm]
      exact moveStep_withPg (s := { s with moves := rest }) hs hg hc m

end

theorem State.Agree.step {s t : State} (h : s.Agree t) : OutcomesAgree (step s) (step t) := by
  obtain rfl | ⟨hs, ht, heq⟩ := h.eq_or_idle
  · exact .refl _
  · rw [heq]
    exact step_withPg hs ht

/-- Settles O33: the outputs are read off the registers that agree, and the steps go by `State.Agree.step`. -/
theorem idleGeneratorRegistersNeverMatter : Obligations.IdleGeneratorRegistersNeverMatter := by
  intro s t h
  refine ⟨h.outputs, fun s' hs => (hs ▸ h.step).of_next, fun r hs => (hs ▸ h.step).of_fault,
    fun r hs => (hs ▸ h.step).of_refused⟩

end Sys2Proof.Machine
end

section
/-! What a transmission puts on the line (spec 42_pulse.md R126, R129, R133): the levels that a generator still has to send, of
which its step takes the first and no other move but a reset takes any. -/

namespace Sys2Proof.Machine

/-! ### The levels left -/

/-- The levels that the generator, sending with `e`, still has to put on the line: the rest of the current segment, and the
waveform from the next position on. -/
def PulseGen.levelsLeft (g : PulseGen) (e : Encoding) (tg : Bool) : List Level :=
  if g.phase = .idle then []
  else List.replicate g.rem g.phase.level ++ units (segmentsFrom e tg g.val (succ e tg g.position))

section
variable (g : PulseGen) (e : Encoding) (tg : Bool)

theorem PulseGen.length_levelsLeft : (g.levelsLeft e tg).length = g.unitsLeft e tg := by
  by_cases hidle : g.phase = .idle
  · rw [levelsLeft, if_pos hidle, unitsLeft_of_idle e tg hidle]
    rfl
  · rw [levelsLeft, if_neg hidle, unitsLeft_of_busy e tg hidle, List.length_append, List.length_replicate]

/-- A generator that moves on has to send what the waveform has from the position it moved on from. -/
theorem PulseGen.levelsLeft_moveTo_adv (p : Position) :
    (g.moveTo e g.val (adv e tg g.val p)).levelsLeft e tg = units (segmentsFrom e tg g.val p) := by
  by_cases hidle : (adv e tg g.val p).phase = .idle
  · rw [(adv_phase_idle_iff e tg g.val p).mp hidle]
    exact if_pos hidle
  · rw [levelsLeft, if_neg (show ¬ (g.moveTo e g.val _).phase = .idle from hidle), moveTo_rem_of_busy g e _ _ hidle,
      moveTo_val, moveTo_position, moveTo_phase, ← units_segmentsFrom e tg g.val _ hidle, units_segmentsFrom_adv]

/-- `start` leaves the whole waveform to send (R125, R128). -/
theorem PulseGen.levelsLeft_start (pid : BitVec 8) (v : Word) {rep : BitVec 16} (hrep : rep ≠ 0) :
    (g.start e tg pid v rep).levelsLeft e tg = units (waveform e tg v rep.toNat) := by
  have hleft : (rep - 1).toNat + 1 = rep.toNat := by bv_omega
  rw [← hleft]
  exact PulseGen.levelsLeft_moveTo_adv { g with pid := pid, val := v } e tg ⟨.preH, 0, rep - 1⟩

end

/-- A step of the generator takes the first level, which is the one of its phase (10_state.md R33). -/
theorem PulseGen.HasLeft.levelsLeft_eq_cons {e : Encoding} {tg : Bool} {g : PulseGen} {u : Nat}
    (h : g.HasLeft e tg (u + 1)) : g.levelsLeft e tg = g.phase.level :: (g.step e tg).levelsLeft e tg := by
  have hbusy := h.phase_ne_idle
  have hrem := h.rem_pos hbusy
  obtain ⟨r, hr⟩ : ∃ r, g.rem = r + 1 := ⟨g.rem - 1, by omega⟩
  rw [levelsLeft, if_neg hbusy, hr, List.replicate_succ, List.cons_append, PulseGen.step]
  by_cases hlong : 1 < g.rem
  · rw [if_pos hlong, levelsLeft, if_neg hbusy, show g.rem - 1 = r by omega]
    rfl
  · rw [if_neg hlong, PulseGen.levelsLeft_moveTo_adv, show r = 0 by omega]
    rfl

/-! ### The levels left in a state -/

/-- In `s` the generator sends with the entry `e` of the configuration `c`, and `w` is what it still puts on the line. -/
structure State.Emits (c : Config) (e : Encoding) (w : List Level) (s : State) : Prop where
  sending : s.Sending c e w.length
  levels_eq : s.pg.levelsLeft e c.trailingGap = w

section
variable {c : Config} {e : Encoding} {w : List Level} {l : Level} {s t : State}

theorem State.Emits.of_eq (h : s.Emits c e w) (hcfg : t.cfg = s.cfg) (hpg : t.pg = s.pg) : t.Emits c e w := by
  obtain ⟨⟨hc, hentry, hleft⟩, hlevels⟩ := h
  exact ⟨⟨hcfg.trans hc, hpg ▸ hentry, hpg ▸ hleft⟩, hpg ▸ hlevels⟩

/-- The line is at the first of the levels to send. -/
theorem State.Emits.rfOut_eq (h : s.Emits c e (l :: w)) : s.rfOut = l := by
  have hcons := h.sending.hasLeft.levelsLeft_eq_cons.symm.trans h.levels_eq
  exact (List.cons.inj hcons).1

theorem State.Emits.idle_and_low (h : s.Emits c e []) : s.busy = false ∧ s.rfOut = .low := by
  have hidle := h.sending.hasLeft.phase_eq_idle
  exact ⟨h.sending.busy_eq_false, by rw [Block.rfOut, hidle]; rfl⟩

/-- The end of a pulse unit takes the first level, and any other move but a reset takes none (42_pulse.md R134). -/
theorem State.Emits.moveStep_next (h : s.Emits c e (l :: w)) {m : Move} (hreset : m.isReset = false) :
    ∃ t, moveStep m s = .next t ∧ t.moves = s.moves ∧ t.Emits c e ((l :: w).drop (if m.isPulse then 1 else 0)) := by
  have hbusy := h.sending.hasLeft.phase_ne_idle
  cases m with
  | command cmd arg =>
    obtain ⟨t, ht, hpg, hcfg, -, hmoves⟩ := commandStep_of_busy hbusy cmd arg
    exact ⟨t, ht, hmoves, h.of_eq hcfg hpg⟩
  | tick => exact ⟨_, rfl, rfl, h.of_eq rfl rfl⟩
  | pulse =>
    have hcons := h.sending.hasLeft.levelsLeft_eq_cons.symm.trans h.levels_eq
    obtain ⟨rfl, hentry, -⟩ := h.sending
    have hx := pulseStep_of_busy hbusy hentry
    exact ⟨_, hx, rfl, h.sending.moveStep_pulse (m := .pulse) hx rfl, (List.cons.inj hcons).2⟩
  | reset load => cases hreset
  | powerOn load t0 => cases hreset

/-! ### The levels left in a run -/

/-- A run without a reset takes one level for each end of a pulse unit, while there are any to take. -/
theorem State.Emits.run (hc : admitted c = true) {ms rest : List Move} (hreset : ∀ m ∈ ms, m.isReset = false)
    (h : s.Emits c e w) (hm : s.moves = ms ++ rest) (hcount : ms.countP (·.isPulse) < w.length) :
    ∃ u, Sys2Proof.core.run ms.length s = .next u ∧ u.moves = rest ∧ u.Emits c e (w.drop (ms.countP (·.isPulse))) := by
  induction ms generalizing s w with
  | nil => exact ⟨s, run_zero s, hm, h⟩
  | cons m ms ih =>
    obtain ⟨hfirst, hlater⟩ := List.forall_mem_cons.mp hreset
    obtain ⟨l, w, rfl⟩ : ∃ l w', w = l :: w' := List.exists_cons_of_length_pos (by omega)
    have hs : State.Emits c e (l :: w) { s with moves := ms ++ rest } := h.of_eq rfl rfl
    obtain ⟨t, hx, hmoves, ht⟩ := hs.moveStep_next hfirst
    have hstep : step s = .next t := (step_of_moves (h.sending.cfg_eq ▸ hc) hm).trans hx
    rw [List.countP_cons] at hcount ⊢
    rw [List.length_cons, run_succ_of_next hstep, Nat.add_comm, ← List.drop_drop]
    exact ih hlater ht hmoves (by rw [List.length_drop]; omega)

/-- One end of a pulse unit more than that, when one level is left, ends the transmission. -/
theorem State.Emits.run_to_end (hc : admitted c = true) {ms rest : List Move} (hreset : ∀ m ∈ ms, m.isReset = false)
    (h : s.Emits c e w) (hm : s.moves = ms ++ .pulse :: rest) (hcount : ms.countP (·.isPulse) + 1 = w.length) :
    ∃ u, Sys2Proof.core.run (ms.length + 1) s = .next u ∧ u.moves = rest ∧ u.Emits c e [] := by
  obtain ⟨t, hrun, hmoves, ht⟩ := h.run hc hreset hm (by omega)
  obtain ⟨l, hl⟩ : ∃ l, w.drop (ms.countP (·.isPulse)) = [l] :=
    List.length_eq_one_iff.mp (by rw [List.length_drop]; omega)
  rw [hl] at ht
  have hs : State.Emits c e [l] { t with moves := rest } := ht.of_eq rfl rfl
  obtain ⟨u, hx, hu, hend⟩ := hs.moveStep_next (m := .pulse) rfl
  rw [run_add_of_next ms.length 1 hrun]
  exact ⟨u, run_one ((step_of_moves (ht.sending.cfg_eq ▸ hc) hmoves).trans hx), hu, hend⟩

end

/-- Settles O47: TX leaves the whole waveform to send, and a run takes one level of it for each end of a pulse unit. -/
theorem transmissionEmitsItsWaveform : Obligations.TransmissionEmitsItsWaveform := by
  intro s e pid rep v hc hidle he hrep
  have hx := exec_of_transmits hidle (.inl rfl : Transmits s.cfg (.tx pid rep v) pid v rep) hrep he
  refine ⟨_, hx, ?_⟩
  intro wire
  have hemits (ms : List Move) : State.Emits s.cfg e wire
      { s with toBlock := (s.toBlock.start e s.cfg.trailingGap pid v rep).respond .zero, moves := ms } :=
    ⟨⟨rfl, he, (length_units_waveform e _ v _).symm ▸ s.pg.hasLeft_start e _ v pid hrep⟩,
      s.pg.levelsLeft_start e _ pid v hrep⟩
  refine ⟨fun hw => (hw ▸ hemits []).idle_and_low.1, fun ms rest hreset hcount => ⟨?_, fun hlast => ?_⟩⟩
  · obtain ⟨u, hrun, hmoves, hu⟩ := (hemits (ms ++ rest)).run hc hreset rfl hcount
    rw [List.drop_eq_getElem_cons hcount] at hu
    refine ⟨u, hrun, hu.sending.busy_eq_true, ?_, hmoves⟩
    rw [hu.rfOut_eq, List.getElem?_eq_getElem hcount]
  · obtain ⟨u, hrun, hmoves, hu⟩ := (hemits (ms ++ .pulse :: rest)).run_to_end hc hreset rfl hlast
    obtain ⟨hdone, hlow⟩ := hu.idle_and_low
    exact ⟨u, hrun, hdone, hlow, hmoves⟩

end Sys2Proof.Machine
end

section
/-! How long things take: the closed form of a transmission's length (spec 42_pulse.md R133), the waiting lines
(30_encoding.md R70) and the runs with no move scheduled (60_exceptions.md R162). -/

namespace Sys2Proof.Machine

/-! ### The length of a transmission -/

theorem symbolUnits_eq_sum (e : Encoding) (v : Word) (i k : Nat) :
    symbolUnits e v i k = ((List.range' i k).map fun j =>
      (symbolTiming e (bitOf v j)).high + (symbolTiming e (bitOf v j)).low).sum := by
  induction k generalizing i with
  | zero => rfl
  | succ k ih => rw [symbolUnits, ih, List.range'_succ, List.map_cons, List.sum_cons]

/-- Settles O48: the length is R133's `T`, with the sum over the data bits taken along their list. -/
theorem durationInClosedForm : Obligations.DurationInClosedForm := by
  intro e tg v rep bitUnits frameLength
  have hbit (i : Nat) :
      (symbolTiming e (bitOf v i)).high + (symbolTiming e (bitOf v i)).low = bitUnits i := by
    rw [bitOf_eq_getLsbD]
    cases hb : v.getLsbD i <;> simp [bitUnits, hb, symbolTiming]
  have hframe : frameUnits e v = frameLength := by
    simp only [frameUnits, symbolUnits_eq_sum, hbit, ← List.range_eq_range', frameLength]
  rw [length_units_waveform, totalUnits, hframe]

/-! ### The waiting lines -/

theorem lineMoves_waitIdle (s : State) :
    lineMoves s .waitIdle = some (List.replicate (pulsesUntilIdle s) .pulse) := rfl

theorem lineMoves_waitDue (s : State) : lineMoves s .waitDue = some (List.replicate (ticksUntilDue s) .tick) := rfl

/-- A busy generator of a state with the invariant sends with the Encoding it latched (10_state.md R30). -/
theorem State.Inv.exists_emits {s : State} (h : s.Inv) (hbusy : s.pg.phase ≠ .idle) :
    ∃ e, readEnc s.cfg s.pg.pid.toNat = some e ∧ s.Emits s.cfg e (s.pg.levelsLeft e s.cfg.trailingGap) := by
  obtain ⟨e, he, hrange⟩ := h.valid.busy_ok hbusy
  exact ⟨e, he, ⟨rfl, he, fun _ => hrange.rem_pos, (s.pg.length_levelsLeft e _).symm⟩, rfl⟩

theorem pulsesUntilIdle_of_idle {s : State} (hidle : s.pg.phase = .idle) : pulsesUntilIdle s = 0 := by
  unfold pulsesUntilIdle
  split
  · rfl
  · exact PulseGen.unitsLeft_of_idle _ _ hidle

theorem pulsesUntilIdle_eq_length {s : State} {e : Encoding} (he : readEnc s.cfg s.pg.pid.toNat = some e) :
    pulsesUntilIdle s = (s.pg.levelsLeft e s.cfg.trailingGap).length := by
  rw [pulsesUntilIdle, he, PulseGen.length_levelsLeft]

theorem countP_isPulse_replicate (k : Nat) : (List.replicate k Move.pulse).countP (·.isPulse) = k := by
  simp [List.countP_replicate, Move.isPulse]

theorem isReset_of_mem_replicate_pulse {k : Nat} {m : Move} (h : m ∈ List.replicate k Move.pulse) :
    m.isReset = false := by
  rw [List.eq_of_mem_replicate h]
  rfl

/-- `k` ends of a pulse unit, fewer than there are levels to send. -/
theorem State.Emits.run_pulses {c : Config} {e : Encoding} {w : List Level} {s : State} (hc : admitted c = true)
    (h : s.Emits c e w) {j k : Nat} (hj : j < w.length) (hjk : j ≤ k) (rest : List Move) :
    ∃ u, Sys2Proof.core.run j { s with moves := List.replicate k .pulse ++ rest } = .next u ∧ u.busy = true := by
  have hcut : List.replicate k Move.pulse ++ rest =
      List.replicate j .pulse ++ (List.replicate (k - j) .pulse ++ rest) := by
    rw [← List.append_assoc, List.replicate_append_replicate, Nat.add_sub_cancel' hjk]
  have hs : State.Emits c e w { s with moves := List.replicate k .pulse ++ rest } := h.of_eq rfl rfl
  obtain ⟨u, hrun, -, hu⟩ := hs.run hc (fun m hm => isReset_of_mem_replicate_pulse hm) hcut
    (by rwa [countP_isPulse_replicate])
  rw [countP_isPulse_replicate, List.drop_eq_getElem_cons hj] at hu
  rw [List.length_replicate] at hrun
  exact ⟨u, hrun, hu.sending.busy_eq_true⟩

/-- As many ends of a pulse unit as there are levels to send. -/
theorem State.Emits.run_all_pulses {c : Config} {e : Encoding} {w : List Level} {s : State} (hc : admitted c = true)
    (h : s.Emits c e w) (hw : w ≠ []) (rest : List Move) :
    ∃ u, Sys2Proof.core.run w.length { s with moves := List.replicate w.length .pulse ++ rest } = .next u ∧
      u.busy = false := by
  obtain ⟨k, hk⟩ : ∃ k, w.length = k + 1 := ⟨w.length - 1, by have := List.length_pos_iff.mpr hw; omega⟩
  have hcut : List.replicate w.length Move.pulse ++ rest = List.replicate k .pulse ++ .pulse :: rest := by
    rw [hk, List.replicate_succ', List.append_assoc]
    rfl
  have hs : State.Emits c e w { s with moves := List.replicate w.length .pulse ++ rest } := h.of_eq rfl rfl
  obtain ⟨u, hrun, -, hu⟩ := hs.run_to_end hc (fun m hm => isReset_of_mem_replicate_pulse hm) hcut
    (by rw [countP_isPulse_replicate, hk])
  rw [List.length_replicate, ← hk] at hrun
  exact ⟨u, hrun, hu.idle_and_low.1⟩

/-- WAITIDLE makes one end of a pulse unit for each level that is left to send. -/
theorem waitIdle_waits {s : State} (hs : s.Inv) (rest : List Move) :
    ∃ (k : Nat) (t : State), lineMoves s .waitIdle = some (List.replicate k .pulse) ∧
      Sys2Proof.core.run k { s with moves := List.replicate k .pulse ++ rest } = .next t ∧ t.busy = false ∧
      ∀ j < k, ∃ u : State, Sys2Proof.core.run j { s with moves := List.replicate k .pulse ++ rest } = .next u ∧
        u.busy = true := by
  have hline := lineMoves_waitIdle s
  by_cases hidle : s.pg.phase = .idle
  · rw [pulsesUntilIdle_of_idle hidle] at hline
    exact ⟨0, _, hline, run_zero _, (Block.busy_eq_false _).mpr hidle, fun j hj => absurd hj (Nat.not_lt_zero j)⟩
  · obtain ⟨e, he, hemits⟩ := hs.exists_emits hidle
    rw [pulsesUntilIdle_eq_length he] at hline
    have hw : s.pg.levelsLeft e s.cfg.trailingGap ≠ [] := fun hnil =>
      hidle ((Block.busy_eq_false _).mp (hnil ▸ hemits).idle_and_low.1)
    obtain ⟨t, hrun, hdone⟩ := hemits.run_all_pulses hs.cfg_admitted hw rest
    exact ⟨_, t, hline, hrun, hdone, fun j hj => hemits.run_pulses hs.cfg_admitted hj hj.le rest⟩

/-- `due` reads 1 after exactly `ticksUntilDue` counter steps, and not before (40_timer.md R81). -/
theorem due_after_ticks (s : State) {j : Nat} (hj : j ≤ ticksUntilDue s) :
    hasPassed s.wv (s.tick + BitVec.ofNat 16 j) = decide (ticksUntilDue s ≤ j) := by
  have hstart := s.wv.startTick.isLt
  have hend := s.wv.endTick.isLt
  have hnow := s.tick.isLt
  have hwait : (s.wv.endTick - s.tick).toNat = (65536 - s.tick.toNat + s.wv.endTick.toNat) % 65536 :=
    BitVec.toNat_sub ..
  cases hdue : s.due with
  | true =>
    have h0 : ticksUntilDue s = 0 := if_pos hdue
    obtain rfl : j = 0 := by omega
    rw [h0, BitVec.add_zero]
    exact hdue
  | false =>
    have hk : ticksUntilDue s = (s.wv.endTick - s.tick).toNat := if_neg (by simp [hdue])
    rw [hk, hwait] at hj ⊢
    rw [Block.due, hasPassed_eq_distance, decide_eq_false_iff_not] at hdue
    rw [hasPassed_eq_distance, decide_eq_decide, BitVec.toNat_add, BitVec.toNat_ofNat]
    omega

theorem waitDue_waits {s : State} (hc : admitted s.cfg = true) (rest : List Move) :
    ∃ (k : Nat) (t : State), lineMoves s .waitDue = some (List.replicate k .tick) ∧
      Sys2Proof.core.run k { s with moves := List.replicate k .tick ++ rest } = .next t ∧ t.due = true ∧
      ∀ j < k, ∃ u : State, Sys2Proof.core.run j { s with moves := List.replicate k .tick ++ rest } = .next u ∧
        u.due = false := by
  refine ⟨_, _, lineMoves_waitDue s, run_ticks hc _ rest, ?_, fun j hj => ?_⟩
  · exact (due_after_ticks s (Nat.le_refl _)).trans (decide_eq_true (Nat.le_refl _))
  · have hcut : List.replicate (ticksUntilDue s) Move.tick ++ rest =
        List.replicate j .tick ++ (List.replicate (ticksUntilDue s - j) .tick ++ rest) := by
      rw [← List.append_assoc, List.replicate_append_replicate, Nat.add_sub_cancel' hj.le]
    rw [hcut]
    exact ⟨_, run_ticks hc j _, (due_after_ticks s hj.le).trans (decide_eq_false (Nat.not_le.mpr hj))⟩

/-- Settles O52: WAITIDLE and WAITDUE, each by its own lemma. -/
theorem waitingLinesWaitExactly : Obligations.WaitingLinesWaitExactly :=
  fun _ rest hs => ⟨waitIdle_waits hs rest, waitDue_waits hs.cfg_admitted rest⟩

/-! ### Runs with no move scheduled -/

theorem unscheduledStep_moves {s t : State} (h : unscheduledStep s = .next t) : t.moves = s.moves := by
  obtain ⟨-, hx⟩ | ⟨-, -, hx⟩ | ⟨k, -, -, hx⟩ := unscheduledStep_cases s
  · rw [hx] at h; cases h; rfl
  · rw [hx] at h; obtain ⟨g, rfl⟩ := pulseStep_next h; rfl
  · rw [hx] at h; cases h; rfl

/-- While IDLE the counter steps, and the generator stays as it is. -/
theorem unscheduledStep_of_idle {s t : State} (hidle : s.pg.phase = .idle) (h : unscheduledStep s = .next t) :
    t.pg = s.pg ∧ t.tick = s.tick + 1 := by
  rw [unscheduledStep, if_pos hidle] at h
  cases h
  exact ⟨rfl, rfl⟩

/-- While busy the generator steps, when the counter has no turn left, or the counter takes one. -/
theorem State.Inv.unscheduledStep_of_busy {s t : State} (hs : s.Inv) (hbusy : s.pg.phase ≠ .idle)
    (h : unscheduledStep s = .next t) :
    (∃ e, readEnc s.cfg s.pg.pid.toNat = some e ∧ t.pg = s.pg.step e s.cfg.trailingGap) ∨
      (s.turns = t.turns + 1 ∧ t.pg = s.pg) := by
  obtain ⟨hidle, -⟩ | ⟨-, -, hx⟩ | ⟨k, -, hk, hx⟩ := unscheduledStep_cases s
  · exact absurd hidle hbusy
  · obtain ⟨e, he, -⟩ := hs.valid.busy_ok hbusy
    cases (hx.symm.trans h).symm.trans (pulseStep_of_busy (s := s.drawTurns) hbusy he)
    exact .inl ⟨e, he, rfl⟩
  · cases hx.symm.trans h
    exact .inr ⟨hk, rfl⟩

/-- `r` is a run of states with the invariant, and no move is scheduled in it. -/
structure SilentRun (r : Nat → State) : Prop where
  inv : ∀ n, (r n).Inv
  makes : ∀ n, unscheduledStep (r n) = .next (r (n + 1))

/-- The state after a step; one that does not step stays. -/
def nextState (s : State) : State :=
  match step s with
  | .next t => t
  | .fault _ => s
  | .refused _ => s

theorem nextState_of_step {s t : State} (h : step s = .next t) : nextState s = t := by
  rw [nextState, h]

/-- The states that steps from `s` reach, one after the other. -/
def statesFrom (s : State) : Nat → State
  | 0 => s
  | n + 1 => nextState (statesFrom s n)

/-- From a state with the invariant no step stops (60_exceptions.md R161). -/
theorem silentRun_statesFrom {s : State} (hs : s.Inv) (hm : s.moves = []) :
    SilentRun (statesFrom s) ∧ ∀ n, (statesFrom s n).moves = [] := by
  have hnext {u : State} (hu : u.Inv) (hum : u.moves = []) : unscheduledStep u = .next (nextState u) := by
    obtain ⟨t, ht⟩ := hu.exists_unscheduledStep
    rw [nextState_of_step ((step_of_no_moves hu.cfg_admitted hum).trans ht), ht]
  have hkeep (n : Nat) : (statesFrom s n).Inv ∧ (statesFrom s n).moves = [] := by
    induction n with
    | zero => exact ⟨hs, hm⟩
    | succ n ih =>
      obtain ⟨hinv, hmoves⟩ := ih
      have hx := hnext hinv hmoves
      exact ⟨hinv.of_unscheduledStep hx, (unscheduledStep_moves hx).trans hmoves⟩
  exact ⟨⟨fun n => (hkeep n).1, fun n => hnext (hkeep n).1 (hkeep n).2⟩, fun n => (hkeep n).2⟩

namespace SilentRun
variable {r : Nat → State} (hr : SilentRun r)
include hr

theorem cfg_eq (n : Nat) : (r n).cfg = (r 0).cfg := by
  induction n with
  | zero => rfl
  | succ n ih => exact (unscheduledStep_cfg (hr.makes n)).trans ih

/-- A busy generator steps once the counter has taken its turns, and stays as it is until then. -/
theorem exists_pulse {n : Nat} (hbusy : (r n).pg.phase ≠ .idle) :
    ∃ m e, n ≤ m ∧ (r m).pg = (r n).pg ∧ readEnc (r 0).cfg (r m).pg.pid.toNat = some e ∧
      (r (m + 1)).pg = (r m).pg.step e (r 0).cfg.trailingGap := by
  induction hk : (r n).turns using Nat.strong_induction_on generalizing n with
  | h k ih =>
    obtain ⟨e, he, hstep⟩ | ⟨hturns, hpg⟩ := (hr.inv n).unscheduledStep_of_busy hbusy (hr.makes n)
    · rw [hr.cfg_eq n] at he hstep
      exact ⟨n, e, Nat.le_refl n, rfl, he, hstep⟩
    · obtain ⟨m, e, hm, hpg', he, hstep⟩ := ih _ (by omega) (n := n + 1) (hpg ▸ hbusy) rfl
      exact ⟨m, e, by omega, hpg'.trans hpg, he, hstep⟩

/-- Each of the generator's steps takes a unit from the transmission, so it ends. -/
theorem exists_idle {u n : Nat} {e : Encoding} (h : (r n).Sending (r 0).cfg e u) :
    ∃ m, (r m).pg.phase = .idle := by
  induction u generalizing n with
  | zero => exact ⟨n, h.hasLeft.phase_eq_idle⟩
  | succ u ih =>
    obtain ⟨m, e', -, hpg, he', hstep⟩ := hr.exists_pulse h.hasLeft.phase_ne_idle
    rw [hpg] at he' hstep
    obtain rfl : e' = e := Option.some.inj (he'.symm.trans h.entry)
    refine ih (n := m + 1) ⟨hr.cfg_eq _, ?_, ?_⟩
    · rw [hstep, PulseGen.step_pid, he']
    · rw [hstep]
      exact h.hasLeft.step

/-- An IDLE generator stays IDLE, because no command comes. -/
theorem stays_idle {n m : Nat} (hidle : (r n).pg.phase = .idle) (hnm : n ≤ m) : (r m).pg.phase = .idle := by
  induction m, hnm using Nat.le_induction with
  | base => exact hidle
  | succ m _ ih => rw [(unscheduledStep_of_idle ih (hr.makes m)).1, ih]

theorem idle_for_good : ∃ n, ∀ m, n ≤ m → (r m).pg.phase = .idle := by
  obtain ⟨n, hn⟩ : ∃ n, (r n).pg.phase = .idle := by
    by_cases hidle : (r 0).pg.phase = .idle
    · exact ⟨0, hidle⟩
    · obtain ⟨e, -, hemits⟩ := (hr.inv 0).exists_emits hidle
      exact hr.exists_idle hemits.sending
  exact ⟨n, fun m hm => hr.stays_idle hn hm⟩

end SilentRun

/-- Settles O24: the counter's turns run out before each of the generator's steps, and its units left with those; from then on
only the counter steps. -/
theorem unscheduledRunsAreFair : Obligations.UnscheduledRunsAreFair := by
  intro s hs hm
  obtain ⟨hr, hmoves⟩ := silentRun_statesFrom hs hm
  obtain ⟨n, hidle⟩ := hr.idle_for_good
  refine ⟨statesFrom s, rfl, fun k => ?_, fun k => ?_, fun k hbusy => ?_, n, fun m hnm => ?_⟩
  · exact (step_of_no_moves (hr.inv k).cfg_admitted (hmoves k)).trans (hr.makes k)
  · have hlate := hidle (max k n) (le_max_right k n)
    exact ⟨max k n, le_max_left k n, (unscheduledStep_of_idle hlate (hr.makes _)).2⟩
  · obtain ⟨m, e, hkm, hpg, he, hstep⟩ := hr.exists_pulse ((Block.busy_eq_true _).mp hbusy)
    exact ⟨m, e, hkm, (Block.busy_eq_true _).mpr (hpg ▸ (Block.busy_eq_true _).mp hbusy), he, hstep⟩
  · exact (Block.busy_eq_false _).mpr (hidle m hnm)

end Sys2Proof.Machine
end

section
/-! What a frame says about its pattern (spec 42_pulse.md, "Round trip"): the segments, and on the wire the length of each
symbol's high part, tell the data bits one by one. -/

namespace Sys2Proof.Machine

variable {e : Encoding} {v w : Word}

/-! ### The pattern's bits -/

/-- A pattern below `2 ^ n` has no bit from `n` on, so bits 0 to `min n 32 - 1` determine it. -/
theorem eq_of_low_bits_eq {n : Nat} (hbits : ∀ i < min n 32, v.getLsbD i = w.getLsbD i) (hv : v.toNat < 2 ^ n)
    (hw : w.toNat < 2 ^ n) : v = w := by
  refine BitVec.eq_of_getLsbD_eq fun i hi => ?_
  obtain hin | hni := Nat.lt_or_ge i n
  · exact hbits i (lt_min hin hi)
  · have hhigh {x : Word} (hx : x.toNat < 2 ^ n) : x.getLsbD i = false :=
      Nat.testBit_lt_two_pow (hx.trans_le (Nat.pow_le_pow_right (by decide) hni))
    rw [hhigh hv, hhigh hw]

theorem low_bits_eq_of_bitOf_eq (h : ∀ i < e.bitCount, bitOf v i = bitOf w i) :
    ∀ i < min e.bitCount 32, v.getLsbD i = w.getLsbD i := by
  intro i hi
  rw [← bitOf_eq_getLsbD, ← bitOf_eq_getLsbD, h i (hi.trans_le (min_le_left _ _))]

/-- The two symbols tell the bits apart when some part of them differs. -/
theorem bit_eq_of_symbolTiming {α : Type} {f : Symbol → α} (hne : f e.sym0 ≠ f e.sym1) {a b : Bool}
    (h : f (symbolTiming e a) = f (symbolTiming e b)) : a = b := by
  cases a <;> cases b
  · rfl
  · exact absurd h hne
  · exact absurd h.symm hne
  · rfl

/-! ### From the segments -/

/-- A symbol is two segments, whatever its bit is, so equal lists have equal symbols. -/
theorem bitOf_eq_of_symbolsFrom_eq (hne : e.sym0 ≠ e.sym1) {i k : Nat} (h : symbolsFrom e v i k = symbolsFrom e w i k) :
    ∀ j, i ≤ j → j < i + k → bitOf v j = bitOf w j := by
  induction k generalizing i with
  | zero => intro j hij hj; omega
  | succ k ih =>
    simp only [symbolsFrom, symbolSegments, List.cons_append, List.nil_append, List.cons.injEq, Segment.mk.injEq,
      true_and] at h
    obtain ⟨hhigh, hlow, hrest⟩ := h
    have hsymbol : symbolTiming e (bitOf v i) = symbolTiming e (bitOf w i) :=
      congrArg₂ Symbol.mk hhigh hlow
    intro j hij hj
    obtain rfl | hlt := Nat.eq_or_lt_of_le hij
    · exact bit_eq_of_symbolTiming (f := id) hne hsymbol
    · exact ih hrest j hlt (by omega)

/-! ### From the wire -/

/-- The length of a high part is where the line first goes low. -/
theorem high_run_inj {a b : Nat} {x y : List Level}
    (h : List.replicate a .high ++ .low :: x = List.replicate b .high ++ .low :: y) : a = b ∧ x = y := by
  induction a generalizing b with
  | zero =>
    cases b with
    | zero => exact ⟨rfl, (List.cons.inj h).2⟩
    | succ b => cases (List.cons.inj h).1
  | succ a ih =>
    cases b with
    | zero => cases (List.cons.inj h).1
    | succ b =>
      obtain ⟨hab, hxy⟩ := ih (List.cons.inj h).2
      exact ⟨congrArg Nat.succ hab, hxy⟩

/-- On the wire a symbol with a low part tells its bit by its high part, and the same symbol is then cut off both. -/
theorem bitOf_eq_of_wire_eq (h0 : 0 < e.sym0.low) (h1 : 0 < e.sym1.low) (hne : e.sym0.high ≠ e.sym1.high) {i k : Nat}
    {x y : List Level} (h : units (symbolsFrom e v i k) ++ x = units (symbolsFrom e w i k) ++ y) :
    ∀ j, i ≤ j → j < i + k → bitOf v j = bitOf w j := by
  induction k generalizing i with
  | zero => intro j hij hj; omega
  | succ k ih =>
    have hlow (b : Bool) : ∃ n, (symbolTiming e b).low = n + 1 := by
      cases b
      · exact Nat.exists_eq_add_one.mpr h0
      · exact Nat.exists_eq_add_one.mpr h1
    obtain ⟨n, hn⟩ := hlow (bitOf v i)
    obtain ⟨m, hm⟩ := hlow (bitOf w i)
    simp only [symbolsFrom, symbolSegments, List.cons_append, List.nil_append, units_cons, List.append_assoc, hn, hm,
      List.replicate_succ] at h
    obtain ⟨hhigh, hrest⟩ := high_run_inj h
    have hbit : bitOf v i = bitOf w i := bit_eq_of_symbolTiming (f := Symbol.high) hne hhigh
    have hnm : n = m := by
      rw [hbit] at hn
      omega
    rw [hnm] at hrest
    intro j hij hj
    obtain rfl | hlt := Nat.eq_or_lt_of_le hij
    · exact hbit
    · exact ih (List.append_cancel_left hrest) j hlt (by omega)

/-- Settles O50: the preamble is the same for every pattern, and after it the bits are told apart one symbol at a time. -/
theorem frameDeterminesThePattern : Obligations.FrameDeterminesThePattern := by
  intro e v w _
  refine ⟨fun hne h => ?_, fun _ h0 _ h1 hne a b h => ?_⟩
  · have hsymbols := bitOf_eq_of_symbolsFrom_eq hne (List.append_cancel_left h)
    have hbits := low_bits_eq_of_bitOf_eq (e := e) fun i hi => hsymbols i (Nat.zero_le i) (by omega)
    exact ⟨hbits, eq_of_low_bits_eq hbits⟩
  · rw [frame, frame, units_append, units_append, List.append_assoc, List.append_assoc] at h
    have hsymbols := bitOf_eq_of_wire_eq h0 h1 hne (List.append_cancel_left h)
    exact low_bits_eq_of_bitOf_eq (e := e) fun i hi => hsymbols i (Nat.zero_le i) (by omega)

end Sys2Proof.Machine
end

section
/-! The text of a line (spec 30_encoding.md R69, R70; log 19): a line is a mnemonic, a space and numbers between commas, with or
without a comment, and each of its parts is read back from it. -/

namespace Sys2Proof.Machine

/-! ### Characters and words -/

/-- The character is neither a space, nor a comma, nor the comment sign. -/
def isWordChar (c : Char) : Bool := !isSpace c && (decide (c ≠ ';') && decide (c ≠ ','))

theorem isWordChar_iff {c : Char} : isWordChar c = true ↔ isSpace c = false ∧ c ≠ ';' ∧ c ≠ ',' := by
  rw [isWordChar, Bool.and_eq_true, Bool.and_eq_true, decide_eq_true_eq, decide_eq_true_eq, Bool.not_eq_true']

/-- A mnemonic or a number: one or more characters that part nothing. -/
structure IsWord (cs : List Char) : Prop where
  ne_nil : cs ≠ []
  chars : ∀ c ∈ cs, isWordChar c = true

/-- The text begins and ends with a character that is no space. -/
structure Framed (cs : List Char) : Prop where
  first : ∃ c l, cs = c :: l ∧ isSpace c = false
  last : ∃ l c, cs = l ++ [c] ∧ isSpace c = false

theorem IsWord.framed {cs : List Char} (h : IsWord cs) : Framed cs := by
  have hspace {c : Char} (hc : c ∈ cs) : isSpace c = false := (isWordChar_iff.mp (h.chars c hc)).1
  obtain ⟨c, l, hfirst⟩ := List.exists_cons_of_ne_nil h.ne_nil
  exact ⟨⟨c, l, hfirst, hspace (by simp [hfirst])⟩,
    ⟨cs.dropLast, cs.getLast h.ne_nil, (List.dropLast_append_getLast h.ne_nil).symm, hspace (List.getLast_mem _)⟩⟩

theorem Framed.append {a b : List Char} (ha : Framed a) (hb : Framed b) (m : List Char) : Framed (a ++ (m ++ b)) := by
  obtain ⟨c, l, rfl, hc⟩ := ha.first
  obtain ⟨l', d, rfl, hd⟩ := hb.last
  exact ⟨⟨c, _, rfl, hc⟩, ⟨c :: l ++ (m ++ l'), d, by simp, hd⟩⟩

theorem Framed.ne_nil {cs : List Char} (h : Framed cs) : cs ≠ [] := by
  obtain ⟨c, l, rfl, -⟩ := h.first
  exact List.cons_ne_nil c l

theorem Framed.trim {cs : List Char} (h : Framed cs) : trim cs = cs := by
  have hdrop {c : Char} (hc : isSpace c = false) (l : List Char) : (c :: l).dropWhile isSpace = c :: l :=
    List.dropWhile_cons_of_neg (by simp [hc])
  obtain ⟨c, l, hfirst, hc⟩ := h.first
  obtain ⟨l', d, hlast, hd⟩ := h.last
  rw [Machine.trim, hfirst, hdrop hc, ← hfirst, hlast, List.reverse_append, List.reverse_singleton,
    List.singleton_append, hdrop hd, List.reverse_cons, List.reverse_reverse]

theorem trim_space_cons (cs : List Char) : trim (' ' :: cs) = trim cs := rfl

/-! ### Numbers -/

/-- The text is the number in one of the three notations of R69. -/
def IsNumeral (n : Nat) (text : List Char) : Prop :=
  text = Nat.toDigits 10 n ∨ text = '0' :: 'x' :: Nat.toDigits 16 n ∨ text = '0' :: 'b' :: Nat.toDigits 2 n

/-- An argument along the digits of a number, from the most significant on. -/
theorem toDigits_induction {b : Nat} {P : Nat → List Char → Prop} (hb : 1 < b)
    (hfirst : ∀ d < b, P d [d.digitChar])
    (hnext : ∀ q, ∀ d < b, P q (Nat.toDigits b q) → P (q * b + d) (Nat.toDigits b q ++ [d.digitChar])) (n : Nat) :
    P n (Nat.toDigits b n) := by
  induction n using Nat.strong_induction_on with
  | h n ih =>
    obtain hn | hn := Nat.lt_or_ge n b
    · rw [Nat.toDigits_of_lt_base hn]
      exact hfirst n hn
    · have hdiv : n / b * b + n % b = n := Nat.div_add_mod' n b
      have h := hnext (n / b) (n % b) (Nat.mod_lt n (by omega)) (ih _ (Nat.div_lt_self (by omega) hb))
      rwa [hdiv, ← Nat.toDigits_of_base_le hb hn] at h

theorem isWord_toDigits {b : Nat} (hb : 1 < b) (hb16 : b ≤ 16) (n : Nat) : IsWord (Nat.toDigits b n) := by
  have hdigit : ∀ d < 16, isWordChar d.digitChar = true := by decide
  refine ⟨Nat.toDigits_ne_nil, toDigits_induction (P := fun _ cs => ∀ c ∈ cs, isWordChar c = true) hb ?_ ?_ n⟩
  · intro d hd c hc
    rw [List.mem_singleton.mp hc]
    exact hdigit d (hd.trans_le hb16)
  · intro q d hd ih c hc
    obtain hc | hc := List.mem_append.mp hc
    · exact ih c hc
    · rw [List.mem_singleton.mp hc]
      exact hdigit d (hd.trans_le hb16)

theorem IsWord.cons {c : Char} {cs : List Char} (hc : isWordChar c = true) (h : IsWord cs) : IsWord (c :: cs) :=
  ⟨List.cons_ne_nil c cs, List.forall_mem_cons.mpr ⟨hc, h.chars⟩⟩

theorem IsNumeral.isWord {n : Nat} {text : List Char} (h : IsNumeral n text) : IsWord text := by
  obtain rfl | rfl | rfl := h
  · exact isWord_toDigits (by decide) (by decide) n
  · exact (isWord_toDigits (by decide) (by decide) n).cons (by decide) |>.cons (by decide)
  · exact (isWord_toDigits (by decide) (by decide) n).cons (by decide) |>.cons (by decide)

theorem readDigits_append_singleton {b acc q d : Nat} {cs : List Char} {c : Char} (hcs : readDigits b acc cs = some q)
    (hc : digitValue c = some d) (hd : d < b) : readDigits b acc (cs ++ [c]) = some (q * b + d) := by
  induction cs generalizing acc with
  | nil =>
    cases hcs
    simp only [List.nil_append, readDigits, hc, if_pos hd]
  | cons x cs ih =>
    rw [readDigits] at hcs
    rw [List.cons_append, readDigits]
    cases hx : digitValue x with
    | none => rw [hx] at hcs; cases hcs
    | some k =>
      rw [hx] at hcs
      dsimp only at hcs ⊢
      split at hcs
      next hk => rw [if_pos hk]; exact ih hcs
      · cases hcs

/-- Reading the digits of a number gives the number. -/
theorem readDigits_toDigits {b : Nat} (hb : 1 < b) (hb16 : b ≤ 16) (n : Nat) :
    readDigits b 0 (Nat.toDigits b n) = some n := by
  have hdigit : ∀ d < 16, digitValue d.digitChar = some d := by decide
  refine toDigits_induction (P := fun n cs => readDigits b 0 cs = some n) hb (fun d hd => ?_) (fun q d hd ih => ?_) n
  · have h := readDigits_append_singleton (b := b) (acc := 0) (cs := []) rfl (hdigit d (hd.trans_le hb16)) hd
    rwa [Nat.zero_mul, Nat.zero_add] at h
  · exact readDigits_append_singleton ih (hdigit d (hd.trans_le hb16)) hd

/-- A decimal number has no digit `x` or `b` at its second place. -/
theorem readLiteral_toDigits_ten (n : Nat) : readLiteral (Nat.toDigits 10 n) = some n := by
  have hdigit {c : Char} (hc : c ∈ Nat.toDigits 10 n) : c.isDigit = true :=
    Nat.isDigit_of_mem_toDigits (by decide) (Nat.le_refl 10) hc
  have hread := readDigits_toDigits (b := 10) (by decide) (by decide) n
  unfold readLiteral
  split
  next h => exact absurd h Nat.toDigits_ne_nil
  next h => exact absurd (hdigit (c := 'x') (by simp [h])) (by decide)
  next h => exact absurd (hdigit (c := 'b') (by simp [h])) (by decide)
  next h => rwa [← h]

theorem IsNumeral.readLiteral {n : Nat} {text : List Char} (h : IsNumeral n text) : readLiteral text = some n := by
  obtain rfl | rfl | rfl := h
  · exact readLiteral_toDigits_ten n
  · have hread := readDigits_toDigits (b := 16) (by decide) (by decide) n
    obtain ⟨c, cs, hcs⟩ := List.exists_cons_of_ne_nil (Nat.toDigits_ne_nil (n := n) (b := 16))
    rw [hcs] at hread ⊢
    exact hread
  · have hread := readDigits_toDigits (b := 2) (by decide) (by decide) n
    obtain ⟨c, cs, hcs⟩ := List.exists_cons_of_ne_nil (Nat.toDigits_ne_nil (n := n) (b := 2))
    rw [hcs] at hread ⊢
    exact hread

/-! ### Operands -/

/-- The text of one operand or more, with a comma and a space between (R69). -/
def operandText (a : List Char) : List (List Char) → List Char
  | [] => a
  | b :: bs => a ++ ([',', ' '] ++ operandText b bs)

theorem framed_operandText {a : List Char} {bs : List (List Char)} (ha : IsWord a) (hbs : ∀ b ∈ bs, IsWord b) :
    Framed (operandText a bs) := by
  induction bs generalizing a with
  | nil => exact ha.framed
  | cons b bs ih =>
    obtain ⟨hb, hbs⟩ := List.forall_mem_cons.mp hbs
    exact ha.framed.append (ih hb hbs) _

theorem ne_semicolon_of_mem_operandText {a : List Char} {bs : List (List Char)} (ha : IsWord a)
    (hbs : ∀ b ∈ bs, IsWord b) : ∀ c ∈ operandText a bs, c ≠ ';' := by
  have hsep : ∀ c ∈ [',', ' '], c ≠ ';' := by simp
  have hword {w : List Char} (hw : IsWord w) : ∀ c ∈ w, c ≠ ';' := fun c hc => (isWordChar_iff.mp (hw.chars c hc)).2.1
  induction bs generalizing a with
  | nil => exact hword ha
  | cons b bs ih =>
    obtain ⟨hb, hbs⟩ := List.forall_mem_cons.mp hbs
    rw [operandText, List.forall_mem_append, List.forall_mem_append]
    exact ⟨hword ha, hsep, ih hb hbs⟩

theorem commaFields_of_no_comma {cs : List Char} (h : ∀ c ∈ cs, c ≠ ',') : commaFields cs = [cs] := by
  induction cs with
  | nil => rfl
  | cons c cs ih =>
    obtain ⟨hc, hcs⟩ := List.forall_mem_cons.mp h
    rw [commaFields, if_neg hc, ih hcs]

theorem commaFields_append_comma {cs : List Char} (h : ∀ c ∈ cs, c ≠ ',') (rest : List Char) :
    commaFields (cs ++ ',' :: rest) = cs :: commaFields rest := by
  induction cs with
  | nil => rfl
  | cons c cs ih =>
    obtain ⟨hc, hcs⟩ := List.forall_mem_cons.mp h
    rw [List.cons_append, commaFields, if_neg hc, ih hcs]

theorem commaFields_operandText {a : List Char} {bs : List (List Char)} (ha : IsWord a) (hbs : ∀ b ∈ bs, IsWord b) :
    commaFields (' ' :: operandText a bs) = (a :: bs).map (' ' :: ·) := by
  have hcomma {w : List Char} (hw : IsWord w) : ∀ c ∈ ' ' :: w, c ≠ ',' :=
    List.forall_mem_cons.mpr ⟨by decide, fun c hc => (isWordChar_iff.mp (hw.chars c hc)).2.2⟩
  induction bs generalizing a with
  | nil => exact commaFields_of_no_comma (hcomma ha)
  | cons b bs ih =>
    obtain ⟨hb, hbs⟩ := List.forall_mem_cons.mp hbs
    rw [List.map_cons, ← ih hb hbs]
    exact commaFields_append_comma (hcomma ha) _

theorem readLiterals_of_numerals {ns : List Nat} {fs : List (List Char)} (h : List.Forall₂ IsNumeral ns fs) :
    readLiterals (fs.map (' ' :: ·)) = some ns := by
  induction h with
  | nil => rfl
  | cons hn _ ih =>
    rw [List.map_cons, readLiterals, trim_space_cons, hn.isWord.framed.trim, hn.readLiteral, ih]

theorem isWord_of_numerals {ns : List Nat} {fs : List (List Char)} (h : List.Forall₂ IsNumeral ns fs) :
    ∀ f ∈ fs, IsWord f := by
  induction h with
  | nil => exact fun f hf => absurd hf List.not_mem_nil
  | cons hn _ ih => exact List.forall_mem_cons.mpr ⟨hn.isWord, ih⟩

theorem readOperands_of_numerals {n : Nat} {ns : List Nat} {a : List Char} {bs : List (List Char)} (ha : IsNumeral n a)
    (hbs : List.Forall₂ IsNumeral ns bs) : readOperands (' ' :: operandText a bs) = some (n :: ns) := by
  have hwords := isWord_of_numerals hbs
  have hframed := framed_operandText ha.isWord hwords
  rw [readOperands, trim_space_cons, hframed.trim, if_neg hframed.ne_nil,
    commaFields_operandText ha.isWord hwords]
  exact readLiterals_of_numerals (.cons ha hbs)

/-! ### Lines -/

/-- Nothing, or a comment. -/
def IsTail (tail : List Char) : Prop := tail = [] ∨ ∃ comment, tail = ';' :: comment

theorem dropComment_append {cs tail : List Char} (h : ∀ c ∈ cs, c ≠ ';') (ht : IsTail tail) :
    dropComment (cs ++ tail) = cs := by
  rw [dropComment, List.takeWhile_append_of_pos (by simpa using h)]
  obtain rfl | ⟨comment, rfl⟩ := ht
  · exact List.append_nil cs
  · exact List.append_nil cs

/-- A line is read as its mnemonic, which ends at the first space, and its operands. -/
theorem readLine_eq {mnemonic rest tail : List Char} {ns : List Nat} {l : Line} (hm : IsWord mnemonic)
    (hrest : rest = [] ∨ ∃ r, rest = ' ' :: r) (hframed : Framed (mnemonic ++ rest)) (hsemi : ∀ c ∈ rest, c ≠ ';')
    (ht : IsTail tail) (hops : readOperands rest = some ns) (hl : lineOf mnemonic ns = some l) :
    readLine (mnemonic ++ rest ++ tail) = if l.fits then some [l] else none := by
  have hspace : ∀ c ∈ mnemonic, (!isSpace c) = true := fun c hc => by
    rw [(isWordChar_iff.mp (hm.chars c hc)).1]
    rfl
  have htake : (mnemonic ++ rest).takeWhile (!isSpace ·) = mnemonic := by
    rw [List.takeWhile_append_of_pos hspace]
    obtain rfl | ⟨r, rfl⟩ := hrest <;> exact List.append_nil mnemonic
  have hdrop : (mnemonic ++ rest).dropWhile (!isSpace ·) = rest := by
    rw [List.dropWhile_append_of_pos hspace]
    obtain rfl | ⟨r, rfl⟩ := hrest <;> rfl
  have hcomment : dropComment (mnemonic ++ rest ++ tail) = mnemonic ++ rest :=
    dropComment_append (List.forall_mem_append.mpr
      ⟨fun c hc => (isWordChar_iff.mp (hm.chars c hc)).2.1, hsemi⟩) ht
  simp only [readLine, hcomment, hframed.trim, hframed.ne_nil, if_false, htake, hdrop, hops, hl]

theorem readLine_of_mnemonic {mnemonic tail : List Char} {l : Line} (hm : IsWord mnemonic) (ht : IsTail tail)
    (hl : lineOf mnemonic [] = some l) (hfits : l.fits = true) : readLine (mnemonic ++ tail) = some [l] := by
  have h := readLine_eq hm (.inl rfl) ((List.append_nil mnemonic).symm ▸ hm.framed)
    (fun c hc => absurd hc List.not_mem_nil) ht rfl hl
  rwa [List.append_nil, if_pos hfits] at h

theorem readLine_of_operands {mnemonic a tail : List Char} {bs : List (List Char)} {n : Nat} {ns : List Nat} {l : Line}
    (hm : IsWord mnemonic) (ht : IsTail tail) (ha : IsNumeral n a) (hbs : List.Forall₂ IsNumeral ns bs)
    (hl : lineOf mnemonic (n :: ns) = some l) :
    readLine (mnemonic ++ ' ' :: operandText a bs ++ tail) = if l.fits then some [l] else none := by
  have hwords := isWord_of_numerals hbs
  exact readLine_eq hm (.inr ⟨_, rfl⟩) (hm.framed.append (framed_operandText ha.isWord hwords) [' '])
    (List.forall_mem_cons.mpr ⟨by decide, ne_semicolon_of_mem_operandText ha.isWord hwords⟩) ht
    (readOperands_of_numerals ha hbs) hl

/-- A mnemonic that is written out. -/
theorem isWord_of_all {cs : List Char} (h : (!cs.isEmpty && cs.all isWordChar) = true) : IsWord cs := by
  rw [Bool.and_eq_true, List.all_eq_true] at h
  refine ⟨?_, h.2⟩
  rintro rfl
  exact absurd h.1 (by decide)

theorem readLine_of_tail {tail : List Char} (ht : IsTail tail) : readLine tail = some [] := by
  obtain rfl | ⟨comment, rfl⟩ := ht <;> rfl

/-- Settles O15: each text is a mnemonic, its operands and a tail, and what it reads as is the line of that mnemonic, if it
fits. -/
theorem textReadsAsItsLine : Obligations.TextReadsAsItsLine := by
  intro tail ht numeral
  refine ⟨readLine_of_tail ht, readLine_of_mnemonic (isWord_of_all rfl) ht rfl rfl,
    readLine_of_mnemonic (isWord_of_all rfl) ht rfl rfl, readLine_of_mnemonic (isWord_of_all rfl) ht rfl rfl,
    readLine_of_mnemonic (isWord_of_all rfl) ht rfl rfl, readLine_of_mnemonic (isWord_of_all rfl) ht rfl rfl,
    readLine_of_mnemonic (isWord_of_all rfl) ht rfl rfl, fun n m k a b c ha hb hc => ?_⟩
  have hone := List.Forall₂.cons (R := IsNumeral) hb .nil
  have htwo := List.Forall₂.cons (R := IsNumeral) hb (.cons hc .nil)
  refine ⟨?_, ?_, ?_, ?_, ?_, ?_⟩
  · have h := readLine_of_operands (mnemonic := ['A', 'R', 'M']) (isWord_of_all rfl) ht ha .nil rfl
    simp only [fits_arm] at h
    exact h
  · have h := readLine_of_operands (mnemonic := ['W', 'A', 'I', 'T', 'T', 'I', 'C', 'K', 'S']) (isWord_of_all rfl) ht ha
      .nil rfl
    exact h.trans (if_pos rfl)
  · have h := readLine_of_operands (mnemonic := ['R', 'E', 'S', 'O', 'L', 'V', 'E']) (isWord_of_all rfl) ht ha hone rfl
    simpa [fits_resolve, operandText] using h
  · have h := readLine_of_operands (mnemonic := ['R', 'A', 'W']) (isWord_of_all rfl) ht ha hone rfl
    simpa [fits_raw, operandText] using h
  · have h := readLine_of_operands (mnemonic := ['T', 'X']) (isWord_of_all rfl) ht ha htwo rfl
    simpa [fits_tx, operandText] using h
  · have h := readLine_of_operands (mnemonic := ['S', 'E', 'N', 'D']) (isWord_of_all rfl) ht ha htwo rfl
    simpa [fits_send, operandText] using h

end Sys2Proof.Machine
end
